-- ==== Sys2Proof/Config.lean ====
section
/-! DEFINITION. The parameters that 00_scope.md R7 fixes for this hardware, and the one free value. What R7
leaves to a run (MEM_LEN, PROG_LEN, IN_LEN, INTERACTIVE) stands in State. -/

namespace Sys2Proof

/-- NUM_MIN, the least legal Number (R7). -/
abbrev Config.numMin : Int := -999

/-- NUM_MAX, the greatest legal Number (R7). -/
abbrev Config.numMax : Int := 999

/-- MAX_INSTR, the instruction budget, fixed at 1000 (R7, R8). -/
abbrev Config.maxInstr : Nat := 1000

/-- The largest MEM_LEN and the largest PROG_LEN (R7). -/
abbrev Config.maxLen : Nat := 8192

/-- ACCEPT_PROGADDR_AS_MEMADDR, false for this hardware (R7, 20_memory.md R57). -/
abbrev Config.acceptProgAddrAsMemAddr : Bool := false

/-- ICOUNT_COUNTS_HALTING_STEP, false for this hardware (R7, 40_engine.md R117). -/
abbrev Config.icountCountsHaltingStep : Bool := false

/-- FREE VALUE (log 2). Whether CANCEL wins when a value and CANCEL are present at the same step of
SUSPENDED: "the model admits either outcome" (41_io.md R132). Nothing constrains it. -/
opaque Config.cancelWinsRace : Nat → Bool

end Sys2Proof
end

