-- ==== Sys2Proof/Word.lean ====
section
/-! DEFINITION. The widths of the machine's words and registers (00_scope.md R7) and the Value type
(10_state.md R21 to R26): what a hand, a cell, a queue entry or a parameter holds. -/

namespace Sys2Proof

/-- A Value in binary form, W_VAL = 16 bits (30_encoding.md R83). -/
abbrev ValueWord := BitVec 16

/-- One instruction, W_INSN = 32 bits (30_encoding.md R82). -/
abbrev InsnWord := BitVec 32

/-- The program counter's width, W_PC = 14 bits (10_state.md R28): an instruction index. -/
abbrev ProgIndex := BitVec 14

/-- The counters' width, W_CNT = 16 bits (10_state.md R29 to R31). -/
abbrev Count := BitVec 16

/-- One host-visible status register (10_state.md R40). -/
abbrev StatusWord := BitVec 32

/-- A Value is exactly one of five variants (10_state.md R21). The payload is plain data; the range each
variant allows is `Value.legal` in WellFormed.lean. -/
inductive Value where
  /-- No value: an empty hand or an empty cell (R26). -/
  | empty
  /-- A Number, an integer (R22). -/
  | number (n : Int)
  /-- A Character by its code (R23; the codes are 30_encoding.md R83's). -/
  | character (code : Nat)
  /-- A memory address (R24). -/
  | memoryAddress (n : Nat)
  /-- A 0-based program index (R25). -/
  | programAddress (n : Nat)
deriving DecidableEq, Repr

/-- Character(c), written with the letter. -/
def Value.letter (c : Char) : Value := .character c.toNat

end Sys2Proof
end

