-- ==== Sys2Proof/Syntax.lean ====
section
/-! DEFINITION. The instructions: one constructor per row of the opcode table (30_encoding.md R80, R85). The
twelve memory-addressed opcodes take a parameter Value of any kind (R81); a jump's parameter is a
ProgramAddress, so its constructor holds the target alone; INBOX and OUTBOX have none. -/

namespace Sys2Proof

inductive Instr where
  /-- INBOX (41_io.md R130). -/
  | inbox
  /-- OUTBOX (41_io.md R131). -/
  | outbox
  /-- COPYFROM p (42_copy.md R140). -/
  | copyFrom (p : Value)
  /-- COPYFROM_INDIRECT p (42_copy.md R141). -/
  | copyFromIndirect (p : Value)
  /-- COPYTO p (42_copy.md R142). -/
  | copyTo (p : Value)
  /-- COPYTO_INDIRECT p (42_copy.md R143). -/
  | copyToIndirect (p : Value)
  /-- ADD p (43_arith.md R150). -/
  | add (p : Value)
  /-- ADD_INDIRECT p (43_arith.md R151). -/
  | addIndirect (p : Value)
  /-- SUB p (43_arith.md R152). -/
  | sub (p : Value)
  /-- SUB_INDIRECT p (43_arith.md R153). -/
  | subIndirect (p : Value)
  /-- BUMP_UP p (44_bump.md R160). -/
  | bumpUp (p : Value)
  /-- BUMP_UP_INDIRECT p (44_bump.md R161). -/
  | bumpUpIndirect (p : Value)
  /-- BUMP_DOWN p (44_bump.md R162). -/
  | bumpDown (p : Value)
  /-- BUMP_DOWN_INDIRECT p (44_bump.md R163). -/
  | bumpDownIndirect (p : Value)
  /-- JUMP t, the 0-based target (45_jump.md R170). -/
  | jump (t : Nat)
  /-- JUMP_IF_ZERO t (45_jump.md R171). -/
  | jumpIfZero (t : Nat)
  /-- JUMP_IF_NEGATIVE t (45_jump.md R172). -/
  | jumpIfNegative (t : Nat)
deriving DecidableEq, Repr

end Sys2Proof
end

