-- ==== Sys2Proof/WellFormed.lean ====
section
/-! DEFINITION. Which Values are legal (10_state.md R21 to R25) and which instructions have an encoding
(30_encoding.md R81). -/

namespace Sys2Proof

/-- A Value's payload is in the range of its variant (10_state.md R21). -/
def Value.legal : Value → Bool
  | .empty => true
  | .number n => decide (Config.numMin ≤ n) && decide (n ≤ Config.numMax)
  | .character c => decide (0x41 ≤ c) && decide (c ≤ 0x5A)
  | .memoryAddress n => decide (n < 8192)
  | .programAddress n => decide (n < 8192)

/-- The instruction's parameter is a legal Value; a jump's target is the payload of a legal
ProgramAddress (10_state.md R21, R25; 30_encoding.md R81). -/
def Instr.wellFormed : Instr → Bool
  | .inbox => true
  | .outbox => true
  | .copyFrom p => p.legal
  | .copyFromIndirect p => p.legal
  | .copyTo p => p.legal
  | .copyToIndirect p => p.legal
  | .add p => p.legal
  | .addIndirect p => p.legal
  | .sub p => p.legal
  | .subIndirect p => p.legal
  | .bumpUp p => p.legal
  | .bumpUpIndirect p => p.legal
  | .bumpDown p => p.legal
  | .bumpDownIndirect p => p.legal
  | .jump t => (Value.programAddress t).legal
  | .jumpIfZero t => (Value.programAddress t).legal
  | .jumpIfNegative t => (Value.programAddress t).legal

end Sys2Proof
end

