-- ==== Sys2Proof/Decode.lean ====
section
/-! DEFINITION. The Value word (30_encoding.md R83, R84), the instruction word (R82, R85 to R87), and the
encoders back. Decoding is total; a word that spells no instruction is rejected by the clause of R87 that it
breaks. -/

namespace Sys2Proof

/-! ## Value words -/

/-- TAG, bits [15:13] of a Value word (R83). -/
def valueTag (v : ValueWord) : BitVec 3 := v.extractLsb' 13 3

/-- PAY, bits [12:0] of a Value word (R83). -/
def valuePay (v : ValueWord) : BitVec 13 := v.extractLsb' 0 13

/-- The Value of a tag and a payload, the cases of R84; none where they are ill_formed. -/
def ofTagPay (tag : Nat) (pay : BitVec 13) : Option Value :=
  match tag with
  | 0 => if pay = 0 then some .empty else none
  | 1 => if Config.numMin ≤ pay.toInt ∧ pay.toInt ≤ Config.numMax then some (.number pay.toInt) else none
  | 2 => if 0x41 ≤ pay.toNat ∧ pay.toNat ≤ 0x5A then some (.character pay.toNat) else none
  | 3 => some (.memoryAddress pay.toNat)
  | 4 => some (.programAddress pay.toNat)
  | _ => none

/-- decode_value (R84): the Value a word spells, or none where it is ill_formed. -/
def decodeValue (v : ValueWord) : Option Value := ofTagPay (valueTag v).toNat (valuePay v)

/-- encode_value (R84), the inverse of decode_value on legal Values; the table is R83's. -/
def encodeValue : Value → ValueWord
  | .empty => 0b000#3 ++ 0#13
  | .number n => 0b001#3 ++ BitVec.ofInt 13 n
  | .character c => 0b010#3 ++ BitVec.ofNat 13 c
  | .memoryAddress n => 0b011#3 ++ BitVec.ofNat 13 n
  | .programAddress n => 0b100#3 ++ BitVec.ofNat 13 n

/-! ## Instruction words -/

/-- OP, bits [31:27] (R82). -/
def insnOp (w : InsnWord) : BitVec 5 := w.extractLsb' 27 5

/-- RSV, bits [26:16] (R82). -/
def insnRsv (w : InsnWord) : BitVec 11 := w.extractLsb' 16 11

/-- PARAM, bits [15:0] (R82). -/
def insnParam (w : InsnWord) : ValueWord := w.extractLsb' 0 16

/-- Why a word is illegal, one name for each clause of R87. -/
inductive Illegal where
  /-- R87(a): RSV is not 0. -/
  | reservedBits
  /-- R87(b): OP is in 17..31. -/
  | reservedOpcode
  /-- R87(c): PARAM is ill_formed. -/
  | illFormedParam
  /-- R87(d): INBOX or OUTBOX with a PARAM. -/
  | unexpectedParam
  /-- R87(e): a jump whose PARAM is no ProgramAddress. -/
  | targetNotProgramAddress
deriving DecidableEq, Repr

/-- An opcode that takes no parameter (R81, R87(d)). -/
def withoutParam (i : Instr) (p : Value) : Except Illegal Instr :=
  if p = .empty then .ok i else .error .unexpectedParam

/-- A jump: its parameter must be a ProgramAddress, whose payload is the target (R81, R87(e), R88). -/
def withTarget (jumpTo : Nat → Instr) : Value → Except Illegal Instr
  | .programAddress t => .ok (jumpTo t)
  | .empty => .error .targetNotProgramAddress
  | .number _ => .error .targetNotProgramAddress
  | .character _ => .error .targetNotProgramAddress
  | .memoryAddress _ => .error .targetNotProgramAddress

/-- The opcode map (R85) applied to a decoded parameter. -/
def ofOpcode (op : Nat) (p : Value) : Except Illegal Instr :=
  match op with
  | 0 => withoutParam .inbox p
  | 1 => withoutParam .outbox p
  | 2 => .ok (.copyFrom p)
  | 3 => .ok (.copyFromIndirect p)
  | 4 => .ok (.copyTo p)
  | 5 => .ok (.copyToIndirect p)
  | 6 => .ok (.add p)
  | 7 => .ok (.addIndirect p)
  | 8 => .ok (.sub p)
  | 9 => .ok (.subIndirect p)
  | 10 => .ok (.bumpUp p)
  | 11 => .ok (.bumpUpIndirect p)
  | 12 => .ok (.bumpDown p)
  | 13 => .ok (.bumpDownIndirect p)
  | 14 => withTarget .jump p
  | 15 => withTarget .jumpIfZero p
  | 16 => withTarget .jumpIfNegative p
  | _ => .error .reservedOpcode

/-- decode (R86). -/
def decode (w : InsnWord) : Except Illegal Instr :=
  if insnRsv w ≠ 0 then .error .reservedBits
  else if 16 < (insnOp w).toNat then .error .reservedOpcode
  else
    match decodeValue (insnParam w) with
    | none => .error .illFormedParam
    | some p => ofOpcode (insnOp w).toNat p

/-- The opcode number of each instruction (R85). -/
def Instr.opcode : Instr → Nat
  | .inbox => 0
  | .outbox => 1
  | .copyFrom _ => 2
  | .copyFromIndirect _ => 3
  | .copyTo _ => 4
  | .copyToIndirect _ => 5
  | .add _ => 6
  | .addIndirect _ => 7
  | .sub _ => 8
  | .subIndirect _ => 9
  | .bumpUp _ => 10
  | .bumpUpIndirect _ => 11
  | .bumpDown _ => 12
  | .bumpDownIndirect _ => 13
  | .jump _ => 14
  | .jumpIfZero _ => 15
  | .jumpIfNegative _ => 16

/-- The parameter of each instruction as a Value, Empty where it has none (R80). -/
def Instr.param : Instr → Value
  | .inbox => .empty
  | .outbox => .empty
  | .copyFrom p => p
  | .copyFromIndirect p => p
  | .copyTo p => p
  | .copyToIndirect p => p
  | .add p => p
  | .addIndirect p => p
  | .sub p => p
  | .subIndirect p => p
  | .bumpUp p => p
  | .bumpUpIndirect p => p
  | .bumpDown p => p
  | .bumpDownIndirect p => p
  | .jump t => .programAddress t
  | .jumpIfZero t => .programAddress t
  | .jumpIfNegative t => .programAddress t

/-- The instruction word of an instruction: OP, RSV = 0, PARAM (R82). -/
def encode (i : Instr) : InsnWord :=
  BitVec.ofNat 5 i.opcode ++ 0#11 ++ encodeValue i.param

/-- The instruction the decoder reads from a word whose bits are w, numbered as the opcode table numbers them.
Every instruction is exactly one 32-bit word (R82, R89); a shorter row's upper bits are 0. -/
def decodeTableWord (nbits w : Nat) : Option Instr :=
  if nbits ≤ 32 then (decode (BitVec.ofNat 32 (w % 2 ^ nbits))).toOption else none

end Sys2Proof
end

