-- ==== Sys2Proof/Machine/State.lean ====
section
/-! DEFINITION. The state of the machine (10_state.md R20 to R37), the reasons a run ends (60_exceptions.md R181,
R184), and the state right after reset (R43). -/

namespace Sys2Proof.Machine

/-- run_state (10_state.md R32). Code 7 is never produced, so it is no value of the type (log 7). -/
inductive RunState where
  | running
  | haltedNormally
  | haltedOnError
  | haltedOnBudgetExceeded
  | haltedOnInternalFault
  | suspended
  | cancelled
deriving DecidableEq, Repr

/-- The ErrorKinds (60_exceptions.md R181). -/
inductive ErrorKind where
  /-- Raised by the loader only (R182). -/
  | invalidValue
  | emptyHands
  | invalidDirectAddressType
  | directAddressOutOfRange
  | invalidIndirectAddressType
  | indirectAddressOutOfRange
  | readingEmptyCell
  | badAddendTypeInHands
  | badAddendTypeInMemory
  | badSubtrahendTypeInHands
  | badSubtrahendTypeInMemory
  | badTypeForBumpInMemory
  | overflow
  | underflow
  | badJumpConditionType
deriving DecidableEq, Repr

/-- The internal faults (60_exceptions.md R184). -/
inductive FaultKind where
  | pcOutOfRange
  | illegalInstruction
  | bankIndex
deriving DecidableEq, Repr

/-- One listed cell of the bank: its index and the Value it holds (20_memory.md R50). -/
abbrev Cell := Nat × Value

/-- The memory bank: the cells that hold something, by rising index; an unlisted cell is Empty
(20_memory.md R50, log 6). -/
abbrev Memory := List Cell

/-- What the loader places before RESET and no step changes (10_state.md R36, 00_scope.md R7). -/
structure Launch where
  /-- The program, PROG_LEN words (10_state.md R36, 30_encoding.md R94). -/
  prog : List InsnWord
  /-- MEM_LEN, the bank's length in cells (20_memory.md R50). -/
  memLen : Nat
  /-- The room image that RESET copies into mem (10_state.md R43). -/
  room : Memory
  /-- INTERACTIVE (00_scope.md R7): false is batch mode. -/
  interactive : Bool
deriving DecidableEq, Repr

/-- What the host presents at one step through the control inputs of 10_state.md R41 (log 1). -/
structure HostTick where
  /-- IN_PUSH, in order. -/
  pushes : List Value
  /-- CANCEL. -/
  cancel : Bool
  /-- RESET. -/
  reset : Bool
deriving DecidableEq, Repr

/-- The host does nothing. -/
def HostTick.idle : HostTick := { pushes := [], cancel := false, reset := false }

structure State where
  /-- The one register (10_state.md R27). -/
  hands : Value
  /-- The program counter (R28). -/
  pc : ProgIndex
  /-- The instructions-executed counter (R29). -/
  icount : Count
  /-- The input cursor, in_cursor (R30). -/
  inCursor : Count
  /-- The output sequence (R31), oldest first. -/
  outq : List Value
  /-- run_state (R32). -/
  runState : RunState
  /-- err_kind (R33); none is code 0. -/
  errKind : Option ErrorKind
  /-- fault_kind (R34); none is code 0. -/
  faultKind : Option FaultKind
  /-- The memory bank (R35). -/
  mem : Memory
  /-- The input queue (R37), oldest first. -/
  inq : List Value
  /-- What the loader placed. -/
  launch : Launch
  /-- The model's own: what the host presents at the coming steps, one entry a step, oldest first (log 1). -/
  hostInputs : List HostTick
  /-- The model's own: how often the free value of R132's race has been read (log 2). -/
  freeReads : Nat
deriving DecidableEq, Repr

/-- Nothing raises a fault of the interface: every way this hardware ends a run, its internal faults among
them, is a next state with a terminal run_state (60_exceptions.md R180, log 5). The type has no constructor, so
that "no step faults" holds by type; that is safe. -/
inductive Fault where
deriving DecidableEq, Repr

/-- What a step can refuse. -/
inductive Refusal where
  /-- Raised by exec's arm of an instruction that has no meaning yet; safe. No arm of this model raises it. -/
  | notModelled (mnemonic : String)
deriving DecidableEq, Repr

/-- What a step answers. -/
abbrev Outcome := Host.Outcome State Fault Refusal

/-- Nothing placed by the loader: no program, a blank room of the largest size, batch mode (log 4). -/
def Launch.blank : Launch := { prog := [], memLen := 8192, room := [], interactive := false }

/-- The machine right after RESET with nothing placed (10_state.md R43, log 4). -/
def State.reset : State where
  hands := .empty
  pc := 0
  icount := 0
  inCursor := 0
  outq := []
  runState := .running
  errKind := none
  faultKind := none
  mem := []
  inq := []
  launch := Launch.blank
  hostInputs := []
  freeReads := 0

end Sys2Proof.Machine
end

