-- ==== Sys2Proof/Machine/Ops.lean ====
section
/-! DEFINITION. The shared operations: the bank (20_memory.md R51, R72), the queues (R61 to R63), and the ways a
step ends: commit (40_engine.md R117), raise (R118), fault (R114), halt_normally (R119), suspend (41_io.md R130),
cancel (60_exceptions.md R191), and RESET (70_reset_and_hazards.md R210). -/

namespace Sys2Proof.Machine

/-! ## The bank -/

/-- The bank's canonical form: indices strictly rise and no listed cell is Empty. -/
abbrev Memory.wf (m : Memory) : Prop :=
  m.Pairwise (fun a b => a.1 < b.1) ∧ ∀ c ∈ m, c.2 ≠ Value.empty

/-- The Value of cell i; an unlisted cell is Empty (20_memory.md R50, R51). -/
def Memory.read : Memory → Nat → Value
  | [], _ => .empty
  | (j, v) :: m, i => if j = i then v else Memory.read m i

/-- The bank with cell i holding v and no other cell changed (R51), in canonical form. -/
def Memory.write : Memory → Nat → Value → Memory
  | [], i, v => if v = .empty then [] else [(i, v)]
  | (j, w) :: m, i, v =>
    if j < i then (j, w) :: Memory.write m i v
    else if j = i then (if v = .empty then m else (i, v) :: m)
    else (if v = .empty then (j, w) :: m else (i, v) :: (j, w) :: m)

/-- How the execution of an instruction can end other than by a commit (40_engine.md section 2, R114). -/
inductive Halt where
  /-- It raises an ErrorKind (R118). -/
  | raise (e : ErrorKind)
  /-- It ends in an internal fault (R114). -/
  | fault (k : FaultKind)
  /-- It halts the run normally (R119). -/
  | normally
  /-- It suspends (41_io.md R130). -/
  | suspend
deriving DecidableEq, Repr

/-- The result of a check: a value, or the first check that failed (00_scope.md R11). -/
abbrev Checked (α : Type) := Except Halt α

/-- MemRead(i, 1), with the defensive check of R72. -/
def State.memRead (s : State) (i : Nat) : Checked Value :=
  if i < s.launch.memLen then .ok (s.mem.read i) else .error (.fault .bankIndex)

/-- MemWrite(i, 1, v) as a write to commit, with the defensive check of R72. -/
def State.memWrite (s : State) (i : Nat) (v : Value) : Checked Cell :=
  if i < s.launch.memLen then .ok (i, v) else .error (.fault .bankIndex)

/-! ## The queues -/

/-- The Value INBOX would take, inq[in_cursor]; there is one exactly when InAvailable() holds (R61, R62). -/
def State.nextInput (s : State) : Option Value := s.inq[s.inCursor.toNat]?

/-- out_count, the length of outq as a W_CNT-bit counter (10_state.md R31). -/
def State.outCount (s : State) : Count := BitVec.ofNat 16 s.outq.length

/-! ## How a step ends -/

/-- What a successful instruction writes (40_engine.md R117). -/
structure Commit where
  /-- The new hands; the old one where the instruction does not write it. -/
  hands : Value
  /-- The cell to write, if any. -/
  cell : Option Cell := none
  /-- Whether in_cursor advances. -/
  takesInput : Bool := false
  /-- The Value to append to outq, if any. -/
  output : Option Value := none
  /-- The new pc. -/
  nextPc : ProgIndex
deriving DecidableEq, Repr

/-- The bank after a commit's cell write. -/
def Memory.commit (m : Memory) : Option Cell → Memory
  | none => m
  | some c => m.write c.1 c.2

/-- commit (R117): the writes, together; then pc and icount + 1. run_state stays. -/
def State.commit (s : State) (c : Commit) : State :=
  { s with
    hands := c.hands
    mem := s.mem.commit c.cell
    inCursor := if c.takesInput then s.inCursor + 1 else s.inCursor
    outq := s.outq ++ c.output.toList
    pc := c.nextPc
    icount := s.icount + 1 }

/-- icount after a step that halts: unchanged for this hardware; one more under the other reading of
ICOUNT_COUNTS_HALTING_STEP (R117). -/
def State.haltCount (s : State) : Count :=
  if Config.icountCountsHaltingStep then s.icount + 1 else s.icount

/-- raise E (R118): run_state and err_kind, and nothing else. -/
def State.raise (s : State) (e : ErrorKind) : State :=
  { s with runState := .haltedOnError, errKind := some e, icount := s.haltCount }

/-- icount after an internal fault: only ILLEGAL_INSTRUCTION counts under the other reading (R117). -/
def State.faultCount (s : State) : FaultKind → Count
  | .illegalInstruction => s.haltCount
  | .pcOutOfRange => s.icount
  | .bankIndex => s.icount

/-- fault K (R114): run_state and fault_kind, and nothing else. -/
def State.internalFault (s : State) (k : FaultKind) : State :=
  { s with runState := .haltedOnInternalFault, faultKind := some k, icount := s.faultCount k }

/-- halt_normally (R119): run_state, and nothing else. -/
def State.haltNormally (s : State) : State :=
  { s with runState := .haltedNormally, icount := s.haltCount }

/-- The budget halt (R112): run_state, and nothing else. -/
def State.haltOnBudget (s : State) : State :=
  { s with runState := .haltedOnBudgetExceeded }

/-- INBOX suspends (41_io.md R130): run_state, and nothing else. -/
def State.suspend (s : State) : State := { s with runState := .suspended }

/-- CANCEL while SUSPENDED (60_exceptions.md R191): run_state, and nothing else. -/
def State.cancelRun (s : State) : State := { s with runState := .cancelled }

/-- The end of a step that does not commit. -/
def State.halt (s : State) : Halt → State
  | .raise e => s.raise e
  | .fault k => s.internalFault k
  | .normally => s.haltNormally
  | .suspend => s.suspend

/-- The state an instruction's checks lead to: the commit if all passed, the first halt otherwise (R120). -/
def State.conclude (s : State) : Checked Commit → State
  | .ok c => s.commit c
  | .error h => s.halt h

/-! ## RESET -/

/-- RESET (70_reset_and_hazards.md R210): every piece of R20's state takes its reset value, mem the room image;
the program and the input queue stay as they are. -/
def State.restart (s : State) : State :=
  { s with
    hands := .empty
    pc := 0
    icount := 0
    inCursor := 0
    outq := []
    runState := .running
    errKind := none
    faultKind := none
    mem := s.launch.room }

end Sys2Proof.Machine
end

