-- ==== Sys2Proof/Machine/Operands.lean ====
section
/-! DEFINITION. The operand forms: the address validator (20_memory.md R56 to R58) with its two addressing modes
(30_encoding.md R93), and the type checks on hands and on a cell. -/

namespace Sys2Proof.Machine

/-- The addressing mode of a memory-addressed opcode, OP[0] (30_encoding.md R93). -/
inductive AddrMode where
  | direct
  | indirect
deriving DecidableEq, Repr

/-- is_address_kind (20_memory.md R57). -/
def isAddressKind : Value → Bool
  | .number _ => true
  | .memoryAddress _ => true
  | .programAddress _ => Config.acceptProgAddrAsMemAddr
  | .empty => false
  | .character _ => false

/-- payload(v) as an integer (00_scope.md R10); Empty has none, and no rule reads it. -/
def payload : Value → Int
  | .number n => n
  | .memoryAddress n => n
  | .programAddress n => n
  | .character c => c
  | .empty => 0

/-- One stage of the validator: the type test, then the range test, each with the stage's own code (R56, R58). -/
def checkAddress (badType outOfRange : ErrorKind) (memLen : Nat) (p : Value) : Checked Nat :=
  if isAddressKind p = false then .error (.raise badType)
  else if payload p < 0 ∨ (memLen : Int) ≤ payload p then .error (.raise outOfRange)
  else .ok (payload p).toNat

/-- validate_direct (R56). -/
def State.validateDirect (s : State) (p : Value) : Checked Nat :=
  checkAddress .invalidDirectAddressType .directAddressOutOfRange s.launch.memLen p

/-- validate_indirect (R58): the parameter with the indirect codes, then the pointer cell as a direct address. -/
def State.validateIndirect (s : State) (p : Value) : Checked Nat := do
  let n ← checkAddress .invalidIndirectAddressType .indirectAddressOutOfRange s.launch.memLen p
  let q ← s.memRead n
  s.validateDirect q

/-- The validator of an addressing mode (30_encoding.md R88). -/
def State.validate (s : State) : AddrMode → Value → Checked Nat
  | .direct, p => s.validateDirect p
  | .indirect, p => s.validateIndirect p

/-- The integer of a Number; any other Value raises e (10_state.md R26). -/
def numberOr (e : ErrorKind) : Value → Checked Int
  | .number n => .ok n
  | .empty => .error (.raise e)
  | .character _ => .error (.raise e)
  | .memoryAddress _ => .error (.raise e)
  | .programAddress _ => .error (.raise e)

/-- The Value itself; Empty raises e. -/
def nonEmptyOr (e : ErrorKind) (v : Value) : Checked Value :=
  if v = .empty then .error (.raise e) else .ok v

end Sys2Proof.Machine
end

