-- ==== Sys2Proof/Machine/Flags.lean ====
section
/-! DEFINITION. The machine has no flag register (10_state.md R38). What stands in its place: the range check on
every arithmetic result (40_engine.md R124) and the conditions the two conditional jumps read from hands. -/

namespace Sys2Proof.Machine

/-- range_check (R124): by the direction the exact result is out of range in. -/
def rangeCheck (r : Int) : Checked Value :=
  if Config.numMax < r then .error (.raise .overflow)
  else if r < Config.numMin then .error (.raise .underflow)
  else .ok (.number r)

/-- The condition of JUMP_IF_ZERO (45_jump.md R171). -/
def isZero (n : Int) : Bool := decide (n = 0)

/-- The condition of JUMP_IF_NEGATIVE (45_jump.md R172). -/
def isNegative (n : Int) : Bool := decide (n < 0)

end Sys2Proof.Machine
end

