-- ==== Sys2Proof/Machine/Arith.lean ====
section
/-! DEFINITION. ADD and SUB (43_arith.md R150 to R154). -/

namespace Sys2Proof.Machine

/-- ADD in either mode (R150, R151): hands + cell on integers, range-checked. -/
def addChecks (mode : AddrMode) (p : Value) (s : State) : Checked Commit := do
  let a ← numberOr .badAddendTypeInHands s.hands
  let i ← s.validate mode p
  let c ← s.memRead i
  let b ← numberOr .badAddendTypeInMemory c
  let h ← rangeCheck (a + b)
  .ok { hands := h, nextPc := s.pc + 1 }

/-- SUB in either mode (R152, R153): hands - cell on integers, range-checked. -/
def subChecks (mode : AddrMode) (p : Value) (s : State) : Checked Commit := do
  let a ← numberOr .badSubtrahendTypeInHands s.hands
  let i ← s.validate mode p
  let c ← s.memRead i
  let b ← numberOr .badSubtrahendTypeInMemory c
  let h ← rangeCheck (a - b)
  .ok { hands := h, nextPc := s.pc + 1 }

/-- ADD (R150). -/
def execAdd (p : Value) (s : State) : Outcome := .next (s.conclude (addChecks .direct p s))

/-- ADD_INDIRECT (R151). -/
def execAddIndirect (p : Value) (s : State) : Outcome := .next (s.conclude (addChecks .indirect p s))

/-- SUB (R152). -/
def execSub (p : Value) (s : State) : Outcome := .next (s.conclude (subChecks .direct p s))

/-- SUB_INDIRECT (R153). -/
def execSubIndirect (p : Value) (s : State) : Outcome := .next (s.conclude (subChecks .indirect p s))

end Sys2Proof.Machine
end

