-- ==== Sys2Proof/Machine/Bump.lean ====
section
/-! DEFINITION. The bumps (44_bump.md R160 to R163): read, change and write one cell, and copy the result into
hands. They neither read nor check hands. -/

namespace Sys2Proof.Machine

/-- A bump by delta in either mode: +1 for BUMP_UP (R160, R161), -1 for BUMP_DOWN (R162, R163). -/
def bumpChecks (delta : Int) (mode : AddrMode) (p : Value) (s : State) : Checked Commit := do
  let i ← s.validate mode p
  let c ← s.memRead i
  let b ← numberOr .badTypeForBumpInMemory c
  let n ← rangeCheck (b + delta)
  let cell ← s.memWrite i n
  .ok { hands := n, cell := some cell, nextPc := s.pc + 1 }

/-- BUMP_UP (R160). -/
def execBumpUp (p : Value) (s : State) : Outcome := .next (s.conclude (bumpChecks 1 .direct p s))

/-- BUMP_UP_INDIRECT (R161). -/
def execBumpUpIndirect (p : Value) (s : State) : Outcome := .next (s.conclude (bumpChecks 1 .indirect p s))

/-- BUMP_DOWN (R162). -/
def execBumpDown (p : Value) (s : State) : Outcome := .next (s.conclude (bumpChecks (-1) .direct p s))

/-- BUMP_DOWN_INDIRECT (R163). -/
def execBumpDownIndirect (p : Value) (s : State) : Outcome := .next (s.conclude (bumpChecks (-1) .indirect p s))

end Sys2Proof.Machine
end

