-- ==== Sys2Proof/Machine/Copy.lean ====
section
/-! DEFINITION. The copy instructions (42_copy.md R140 to R143). -/

namespace Sys2Proof.Machine

/-- COPYFROM in either mode (R140, R141). -/
def copyFromChecks (mode : AddrMode) (p : Value) (s : State) : Checked Commit := do
  let i ← s.validate mode p
  let c ← s.memRead i
  let v ← nonEmptyOr .readingEmptyCell c
  .ok { hands := v, nextPc := s.pc + 1 }

/-- COPYTO in either mode (R142, R143). -/
def copyToChecks (mode : AddrMode) (p : Value) (s : State) : Checked Commit := do
  let v ← nonEmptyOr .emptyHands s.hands
  let i ← s.validate mode p
  let cell ← s.memWrite i v
  .ok { hands := .empty, cell := some cell, nextPc := s.pc + 1 }

/-- COPYFROM (R140). -/
def execCopyFrom (p : Value) (s : State) : Outcome := .next (s.conclude (copyFromChecks .direct p s))

/-- COPYFROM_INDIRECT (R141). -/
def execCopyFromIndirect (p : Value) (s : State) : Outcome := .next (s.conclude (copyFromChecks .indirect p s))

/-- COPYTO (R142). -/
def execCopyTo (p : Value) (s : State) : Outcome := .next (s.conclude (copyToChecks .direct p s))

/-- COPYTO_INDIRECT (R143). -/
def execCopyToIndirect (p : Value) (s : State) : Outcome := .next (s.conclude (copyToChecks .indirect p s))

end Sys2Proof.Machine
end

