-- ==== Sys2Proof/Machine/Io.lean ====
section
/-! DEFINITION. INBOX and OUTBOX (41_io.md R130 to R132). -/

namespace Sys2Proof.Machine

/-- What INBOX commits when it takes v (R130, R132). -/
def State.takeInput (s : State) (v : Value) : Commit :=
  { hands := v, takesInput := true, nextPc := s.pc + 1 }

/-- INBOX's checks (R130): an exhausted input halts normally in batch mode and suspends in interactive mode. -/
def inboxChecks (s : State) : Checked Commit :=
  match s.nextInput with
  | some v => .ok (s.takeInput v)
  | none => .error (if s.launch.interactive then .suspend else .normally)

/-- INBOX (R130). -/
def execInbox (s : State) : Outcome := .next (s.conclude (inboxChecks s))

/-- OUTBOX's checks (R131). -/
def outboxChecks (s : State) : Checked Commit := do
  let v ← nonEmptyOr .emptyHands s.hands
  .ok { hands := s.hands, output := some v, nextPc := s.pc + 1 }

/-- OUTBOX (R131). -/
def execOutbox (s : State) : Outcome := .next (s.conclude (outboxChecks s))

end Sys2Proof.Machine
end

