-- ==== Sys2Proof/Machine/Jump.lean ====
section
/-! DEFINITION. The jumps (45_jump.md R170 to R173): absolute, to a 0-based program index that the jump does not
check against PROG_LEN. -/

namespace Sys2Proof.Machine

/-- What a control transfer commits: nothing but pc and icount (R173, 40_engine.md R117). -/
def State.goTo (s : State) (target : ProgIndex) : Commit := { hands := s.hands, nextPc := target }

/-- A conditional jump (R171, R172): hands must be a Number; the target if the condition holds of it. -/
def jumpIfChecks (cond : Int → Bool) (t : Nat) (s : State) : Checked Commit := do
  let n ← numberOr .badJumpConditionType s.hands
  .ok (s.goTo (if cond n then BitVec.ofNat 14 t else s.pc + 1))

/-- JUMP (R170). -/
def execJump (t : Nat) (s : State) : Outcome := .next (s.conclude (.ok (s.goTo (BitVec.ofNat 14 t))))

/-- JUMP_IF_ZERO (R171). -/
def execJumpIfZero (t : Nat) (s : State) : Outcome := .next (s.conclude (jumpIfChecks isZero t s))

/-- JUMP_IF_NEGATIVE (R172). -/
def execJumpIfNegative (t : Nat) (s : State) : Outcome := .next (s.conclude (jumpIfChecks isNegative t s))

end Sys2Proof.Machine
end

