-- ==== Sys2Proof/Machine/Dispatch.lean ====
section
/-! DEFINITION. One arm per instruction (40_engine.md R116). -/

namespace Sys2Proof.Machine

def exec (i : Instr) (s : State) : Host.Outcome State Fault Refusal :=
  match i with
  | .inbox => Sys2Proof.Machine.execInbox s
  | .outbox => Sys2Proof.Machine.execOutbox s
  | .copyFrom p => Sys2Proof.Machine.execCopyFrom p s
  | .copyFromIndirect p => Sys2Proof.Machine.execCopyFromIndirect p s
  | .copyTo p => Sys2Proof.Machine.execCopyTo p s
  | .copyToIndirect p => Sys2Proof.Machine.execCopyToIndirect p s
  | .add p => Sys2Proof.Machine.execAdd p s
  | .addIndirect p => Sys2Proof.Machine.execAddIndirect p s
  | .sub p => Sys2Proof.Machine.execSub p s
  | .subIndirect p => Sys2Proof.Machine.execSubIndirect p s
  | .bumpUp p => Sys2Proof.Machine.execBumpUp p s
  | .bumpUpIndirect p => Sys2Proof.Machine.execBumpUpIndirect p s
  | .bumpDown p => Sys2Proof.Machine.execBumpDown p s
  | .bumpDownIndirect p => Sys2Proof.Machine.execBumpDownIndirect p s
  | .jump t => Sys2Proof.Machine.execJump t s
  | .jumpIfZero t => Sys2Proof.Machine.execJumpIfZero t s
  | .jumpIfNegative t => Sys2Proof.Machine.execJumpIfNegative t s

end Sys2Proof.Machine
end

