-- ==== Sys2Proof/Machine/Engine.lean ====
section
/-! DEFINITION. The fetch-decode-execute loop (40_engine.md R110 to R116), leaving SUSPENDED (41_io.md R132), the
terminal states (R121), and the host's control inputs at a step (10_state.md R41). -/

namespace Sys2Proof.Machine

/-! ## The host's inputs -/

/-- What the host presents at the coming step. -/
def State.hostTick (s : State) : HostTick := s.hostInputs.headD HostTick.idle

/-- The input queue after the coming step's pushes, which interactive mode alone takes (10_state.md R41,
20_memory.md R62). -/
def State.inqAfterPushes (s : State) : List Value :=
  if s.launch.interactive then s.inq ++ s.hostTick.pushes else s.inq

/-- The state once the coming step's pushes have arrived: each is entirely before the step (20_memory.md R65). -/
def State.arrive (s : State) : State :=
  { s with hostInputs := s.hostInputs.tail, inq := s.inqAfterPushes }

/-! ## The engine -/

/-- Fetch (40_engine.md R115): prog[pc]; none where pc ≥ PROG_LEN (R113). -/
def State.fetch (s : State) : Option InsnWord := s.launch.prog[s.pc.toNat]?

/-- The decoded instruction's rule, or the ILLEGAL_INSTRUCTION fault (R116). -/
def dispatchWord (w : InsnWord) (s : State) : Outcome :=
  match decode w with
  | .error _ => .next (s.internalFault .illegalInstruction)
  | .ok i => exec i s

/-- A step from RUNNING, in the order of R111: budget, pc bound, fetch, decode, execute. -/
def runningStep (s : State) : Outcome :=
  if Config.maxInstr ≤ s.icount.toNat then .next s.haltOnBudget
  else
    match s.fetch with
    | none => .next (s.internalFault .pcOutOfRange)
    | some w => dispatchWord w s

/-- The suspended INBOX completes with v (R132). -/
def State.wake (s : State) (v : Value) : State := { s.commit (s.takeInput v) with runState := .running }

/-- A value and CANCEL at the same step: either outcome, by the free value (R132, log 2). -/
def State.race (s : State) (v : Value) : State :=
  let t := { s with freeReads := s.freeReads + 1 }
  if Config.cancelWinsRace s.freeReads then t.cancelRun else t.wake v

/-- A step from SUSPENDED (R132). With neither a value nor CANCEL no step is enabled: the state stays. -/
def suspendedStep (cancel : Bool) (s : State) : Outcome :=
  match s.nextInput, cancel with
  | some v, true => .next (s.race v)
  | some v, false => .next (s.wake v)
  | none, true => .next s.cancelRun
  | none, false => .next s

/-- One step without RESET. A terminal state is quiescent (R121); CANCEL is read in SUSPENDED alone
(60_exceptions.md R191). -/
def engineStep (cancel : Bool) (s : State) : Outcome :=
  match s.runState with
  | .running => runningStep s
  | .suspended => suspendedStep cancel s
  | .haltedNormally => .next s
  | .haltedOnError => .next s
  | .haltedOnBudgetExceeded => .next s
  | .haltedOnInternalFault => .next s
  | .cancelled => .next s

/-- One step: the host's pushes arrive, then RESET if the host asserts it, else the engine's step (log 3). -/
def tickStep (s : State) : Outcome :=
  if s.hostTick.reset then .next s.arrive.restart else engineStep s.hostTick.cancel s.arrive

/-! ## Placing one word -/

/-- The program with word w at index n: padded with 0 words up to n where it is shorter. -/
def placeAt (prog : List InsnWord) (n : Nat) (w : InsnWord) : List InsnWord :=
  (prog ++ List.replicate (n - prog.length) 0).take n ++ w :: prog.drop (n + 1)

/-- s with w at pc, ready to run it: RUNNING, budget left, no RESET at the coming step (log 9). -/
def State.placeWord (s : State) (w : InsnWord) : State :=
  { s with
    launch := { s.launch with prog := placeAt s.launch.prog s.pc.toNat w }
    runState := .running
    errKind := none
    faultKind := none
    icount := if Config.maxInstr ≤ s.icount.toNat then 0 else s.icount
    hostInputs := if s.hostTick.reset then [] else s.hostInputs }

end Sys2Proof.Machine
end

