-- ==== Sys2Proof/Machine/Assembler.lean ====
section
/-! DEFINITION. The text syntax of 30_encoding.md R90, R91 and R94: one line of text to one instruction word. Text is
never executed; this is how a program is authored. Text is a list of characters. -/

namespace Sys2Proof.Machine

/-- A decimal digit's value. -/
def decDigit (c : Char) : Option Nat :=
  if '0'.toNat ≤ c.toNat ∧ c.toNat ≤ '9'.toNat then some (c.toNat - '0'.toNat) else none

/-- A hexadecimal digit's value. -/
def hexDigit (c : Char) : Option Nat :=
  if '0'.toNat ≤ c.toNat ∧ c.toNat ≤ '9'.toNat then some (c.toNat - '0'.toNat)
  else if 'A'.toNat ≤ c.toNat ∧ c.toNat ≤ 'F'.toNat then some (c.toNat - 'A'.toNat + 10)
  else if 'a'.toNat ≤ c.toNat ∧ c.toNat ≤ 'f'.toNat then some (c.toNat - 'a'.toNat + 10)
  else none

/-- The number that digits spell in a base, most significant first, after acc. -/
def digitsValue (base : Nat) (digit : Char → Option Nat) : Nat → List Char → Option Nat
  | acc, [] => some acc
  | acc, c :: cs =>
    match digit c with
    | some d => digitsValue base digit (base * acc + d) cs
    | none => none

/-- A decimal operand: at least one digit. -/
def decimal : List Char → Option Nat
  | [] => none
  | c :: cs => digitsValue 10 decDigit 0 (c :: cs)

/-- The words of a line, blanks between them; the arrow is a word of its own (R90). -/
def lineWords : List Char → List Char → List (List Char)
  | [], [] => []
  | cur, [] => [cur.reverse]
  | cur, c :: cs =>
    if c = ' ' ∨ c = '\t' then (if cur = [] then lineWords [] cs else cur.reverse :: lineWords [] cs)
    else if c = '→' then (if cur = [] then ['→'] :: lineWords [] cs else cur.reverse :: ['→'] :: lineWords [] cs)
    else lineWords (c :: cur) cs

/-- The mnemonics without an operand (R90). -/
def plainMnemonic (m : List Char) : Option Instr :=
  if m = "INBOX".toList then some .inbox
  else if m = "OUTBOX".toList then some .outbox
  else none

/-- The memory-addressed mnemonics (R90). -/
def memoryMnemonic (m : List Char) : Option (Value → Instr) :=
  if m = "COPYFROM".toList then some .copyFrom
  else if m = "COPYFROM_INDIRECT".toList then some .copyFromIndirect
  else if m = "COPYTO".toList then some .copyTo
  else if m = "COPYTO_INDIRECT".toList then some .copyToIndirect
  else if m = "ADD".toList then some .add
  else if m = "ADD_INDIRECT".toList then some .addIndirect
  else if m = "SUB".toList then some .sub
  else if m = "SUB_INDIRECT".toList then some .subIndirect
  else if m = "BUMP_UP".toList then some .bumpUp
  else if m = "BUMP_UP_INDIRECT".toList then some .bumpUpIndirect
  else if m = "BUMP_DOWN".toList then some .bumpDown
  else if m = "BUMP_DOWN_INDIRECT".toList then some .bumpDownIndirect
  else none

/-- The jump mnemonics (R90). -/
def jumpMnemonic (m : List Char) : Option (Nat → Instr) :=
  if m = "JUMP".toList then some .jump
  else if m = "JUMP_IF_ZERO".toList then some .jumpIfZero
  else if m = "JUMP_IF_NEGATIVE".toList then some .jumpIfNegative
  else none

/-- A memory-addressed instruction of operand n, 0 ≤ n ≤ 8191 (R90). -/
def assembleMemory (m : List Char) (n : Nat) : Option Instr :=
  if n ≤ 8191 then (memoryMnemonic m).map (fun f => f (.memoryAddress n)) else none

/-- A jump of the authored target t, 1 ≤ t ≤ 8192: 1-based as authored, 0-based in the word (R90, R91). -/
def assembleJump (m : List Char) (t : Nat) : Option Instr :=
  if 1 ≤ t ∧ t ≤ 8192 then (jumpMnemonic m).map (fun f => f (t - 1)) else none

/-- A raw word 0xHHHHHHHH (R90). -/
def rawWord : List Char → Option InsnWord
  | '0' :: 'x' :: ds => if ds.length = 8 then (digitsValue 16 hexDigit 0 ds).map (BitVec.ofNat 32) else none
  | _ => none

/-- An instruction with one operand: memory-addressed or a jump. -/
def assembleOperand (m : List Char) (n : Nat) : Option Instr :=
  match assembleMemory m n with
  | some i => some i
  | none => assembleJump m n

/-- The instruction word of a line's words (R90); none where they are no instruction. -/
def assembleWords : List (List Char) → Option InsnWord
  | [m] => (plainMnemonic m).map encode
  | [m, x] =>
    if m = ".word".toList then rawWord x
    else
      match decimal x with
      | some n => (assembleOperand m n).map encode
      | none => none
  | [m, a, x] =>
    if a = ['→'] then
      match decimal x with
      | some t => (assembleJump m t).map encode
      | none => none
    else none
  | _ => none

/-- One line: text from # on is a comment (R90). -/
def assembleLine (line : List Char) : Option InsnWord :=
  assembleWords (lineWords [] (line.takeWhile (fun c => decide (c ≠ '#'))))

/-- A program text, one instruction per line: the word at index i is the line numbered i + 1 (R94). -/
def assembleProgram : List (List Char) → Option (List InsnWord)
  | [] => some []
  | l :: ls =>
    match assembleLine l, assembleProgram ls with
    | some w, some ws => some (w :: ws)
    | _, _ => none

end Sys2Proof.Machine
end

