-- ==== Sys2Proof/Machine/HostPort.lean ====
section
/-! DEFINITION. The host's side of the block: the status map (10_state.md R40), the data interface and the output
strobe (20_memory.md R63, R64), the run outcome (40_engine.md R123), and the loader's construction checks
(70_reset_and_hazards.md R212, 60_exceptions.md R182, 20_memory.md R71). -/

namespace Sys2Proof
namespace Machine

/-! ## Codes -/

/-- The codes of run_state (10_state.md R32). -/
def RunState.code : RunState → BitVec 3
  | .running => 0
  | .haltedNormally => 1
  | .haltedOnError => 2
  | .haltedOnBudgetExceeded => 3
  | .haltedOnInternalFault => 4
  | .suspended => 5
  | .cancelled => 6

/-- The codes of the ErrorKinds (60_exceptions.md R181). -/
def ErrorKind.code : ErrorKind → BitVec 4
  | .invalidValue => 1
  | .emptyHands => 2
  | .invalidDirectAddressType => 3
  | .directAddressOutOfRange => 4
  | .invalidIndirectAddressType => 5
  | .indirectAddressOutOfRange => 6
  | .readingEmptyCell => 7
  | .badAddendTypeInHands => 8
  | .badAddendTypeInMemory => 9
  | .badSubtrahendTypeInHands => 10
  | .badSubtrahendTypeInMemory => 11
  | .badTypeForBumpInMemory => 12
  | .overflow => 13
  | .underflow => 14
  | .badJumpConditionType => 15

/-- The codes of the internal faults (60_exceptions.md R184). -/
def FaultKind.code : FaultKind → BitVec 2
  | .pcOutOfRange => 1
  | .illegalInstruction => 2
  | .bankIndex => 3

/-- err_kind as its 4-bit field (10_state.md R33). -/
def State.errCode (s : State) : BitVec 4 := (s.errKind.map ErrorKind.code).getD 0

/-- fault_kind as its 2-bit field (10_state.md R34). -/
def State.faultCode (s : State) : BitVec 2 := (s.faultKind.map FaultKind.code).getD 0

/-! ## The status map -/

/-- The status registers (R40). -/
inductive StatusReg where
  | status
  | pc
  | icount
  | inCursor
  | outCount
  | hands
  | memLen
  | progLen
  | maxInstr
deriving DecidableEq, Repr

/-- The register of a number (R40); the map has no other. -/
def StatusReg.ofNumber : Nat → Option StatusReg
  | 0 => some .status
  | 1 => some .pc
  | 2 => some .icount
  | 3 => some .inCursor
  | 4 => some .outCount
  | 5 => some .hands
  | 6 => some .memLen
  | 7 => some .progLen
  | 8 => some .maxInstr
  | _ => none

/-- What the host reads from a status register; reserved bits read 0 (R40). -/
def State.readStatus (s : State) : StatusReg → StatusWord
  | .status => 0#22 ++ (BitVec.ofBool s.launch.interactive ++ (s.faultCode ++ (s.errCode ++ s.runState.code)))
  | .pc => 0#18 ++ s.pc
  | .icount => 0#16 ++ s.icount
  | .inCursor => 0#16 ++ s.inCursor
  | .outCount => 0#16 ++ s.outCount
  | .hands => 0#16 ++ encodeValue s.hands
  | .memLen => 0#18 ++ BitVec.ofNat 14 s.launch.memLen
  | .progLen => 0#18 ++ BitVec.ofNat 14 s.launch.prog.length
  | .maxInstr => 0#16 ++ BitVec.ofNat 16 Config.maxInstr

/-- A host write to a status register is ignored (R40). -/
def State.writeStatus (s : State) (_ : StatusReg) (_ : StatusWord) : State := s

/-! ## The data interface and the strobe -/

/-- The host may read mem, hands and outq in a terminal state or while SUSPENDED (20_memory.md R64). -/
def State.hostMayRead (s : State) : Bool := decide (s.runState ≠ .running)

/-- What the host reads of cell i; none where the read is not allowed or there is no such cell. -/
def State.hostReadCell (s : State) (i : Nat) : Option Value :=
  if s.hostMayRead && decide (i < s.launch.memLen) then some (s.mem.read i) else none

/-- What the host reads of hands. -/
def State.hostReadHands (s : State) : Option Value := if s.hostMayRead then some s.hands else none

/-- What the host reads of outq. -/
def State.hostReadOutput (s : State) : Option (List Value) := if s.hostMayRead then some s.outq else none

/-- The Values on the OUT_APPEND strobe in the step from s to t: what the step appended (20_memory.md R63). -/
def outStrobe (s t : State) : List Value := t.outq.drop s.outq.length

/-! ## The run outcome -/

/-- The outcome of a run (40_engine.md R123). -/
inductive RunOutcome where
  | normal (output unread : List Value)
  | error (e : ErrorKind) (pc : ProgIndex) (icount : Count)
  | budgetExceeded (pc : ProgIndex) (icount : Count)
  | internalFault (k : FaultKind) (pc : ProgIndex) (icount : Count)
  /-- The state of the last completed instruction: R20's tuple, whose three status fields are settled by this form of
  the outcome (log 21). -/
  | cancelled (hands : Value) (pc : ProgIndex) (icount inCursor : Count) (output : List Value) (mem : Memory)
deriving DecidableEq, Repr

/-- The input not yet taken, inq[in_cursor..]. -/
def State.unread (s : State) : List Value := s.inq.drop s.inCursor.toNat

/-- The outcome read from a terminal state (R123); none while the run goes on. -/
def State.outcome (s : State) : Option RunOutcome :=
  match s.runState with
  | .running => none
  | .suspended => none
  | .haltedNormally => some (.normal s.outq s.unread)
  | .haltedOnError => s.errKind.map (fun e => .error e s.pc s.icount)
  | .haltedOnBudgetExceeded => some (.budgetExceeded s.pc s.icount)
  | .haltedOnInternalFault => s.faultKind.map (fun k => .internalFault k s.pc s.icount)
  | .cancelled => some (.cancelled s.hands s.pc s.icount s.inCursor s.outq s.mem)

/-! ## The loader -/

/-- Why the loader refuses a construction; no run starts (R212, 20_memory.md R71). -/
inductive LoadError where
  /-- A Value out of its range (60_exceptions.md R182), code 1 of the ErrorKinds. -/
  | invalidValue
  /-- MEM_LEN above 8192 (R212(b)). -/
  | roomTooLong
  /-- A room index outside [0, MEM_LEN) (R212(b), 20_memory.md R71). -/
  | indexOutsideRoom
  /-- PROG_LEN above 8192 (R212(c)). -/
  | programTooLong
  /-- A parameter whose kind does not match its opcode (R212(c)). -/
  | wrongParamKind
  /-- A jump target outside [0, PROG_LEN) (R212(c)). -/
  | jumpTargetOutside
deriving DecidableEq, Repr

/-- Construct a Value: refused with InvalidValue when it is not legal (R182, R212(a)). -/
def constructValue (v : Value) : Except LoadError Value := if v.legal then .ok v else .error .invalidValue

/-- Construct a Value from its word: an ill_formed word is refused with InvalidValue (R182, 30_encoding.md R84). -/
def constructWord (w : ValueWord) : Except LoadError Value :=
  match decodeValue w with
  | some v => .ok v
  | none => .error .invalidValue

/-- The bank with the (index, Value) pairs written in order and every other cell Empty (R50). -/
def Memory.ofPairs (pairs : List Cell) : Memory := pairs.foldl (fun m c => m.write c.1 c.2) []

/-- Load a room (R212(a), (b), R71). -/
def State.loadRoom (s : State) (memLen : Nat) (pairs : List Cell) : Except LoadError State :=
  if Config.maxLen < memLen then .error .roomTooLong
  else if pairs.any (fun c => decide (memLen ≤ c.1)) then .error .indexOutsideRoom
  else if pairs.any (fun c => !c.2.legal) then .error .invalidValue
  else .ok { s with launch := { s.launch with memLen := memLen, room := Memory.ofPairs pairs } }

end Machine

/-- The parameter kind the loader must supply (30_encoding.md R81). -/
def Instr.paramKindOk (i : Instr) : Bool :=
  match i.param with
  | .memoryAddress _ => true
  | .programAddress _ => decide (14 ≤ i.opcode)
  | .empty => decide (i.opcode < 2)
  | .number _ => false
  | .character _ => false

/-- A jump's target lies in [0, progLen) (R212(c)); other instructions have none. -/
def Instr.targetIn (progLen : Nat) (i : Instr) : Bool :=
  match i.param with
  | .programAddress t => decide (t < progLen)
  | .empty => true
  | .number _ => true
  | .character _ => true
  | .memoryAddress _ => true

namespace Machine

/-- Load a program of abstract instructions (R212(c)); the image is their words in order (30_encoding.md R94). -/
def State.loadProgram (s : State) (is : List Instr) : Except LoadError State :=
  if Config.maxLen < is.length then .error .programTooLong
  else if is.any (fun i => !i.paramKindOk) then .error .wrongParamKind
  else if is.any (fun i => !i.param.legal) then .error .invalidValue
  else if is.any (fun i => !i.targetIn is.length) then .error .jumpTargetOutside
  else .ok { s with launch := { s.launch with prog := is.map encode } }

/-- Place raw words as the program, without R212(c)'s checks: the core is defined on them too (R212). -/
def State.placeProgram (s : State) (ws : List InsnWord) : Except LoadError State :=
  if Config.maxLen < ws.length then .error .programTooLong
  else .ok { s with launch := { s.launch with prog := ws } }

/-- Supply the input queue (R212(a)). -/
def State.supplyInput (s : State) (vs : List Value) : Except LoadError State :=
  if vs.any (fun v => !v.legal) then .error .invalidValue
  else .ok { s with inq := vs }

/-- Fix the mode, INTERACTIVE (R212(d)). -/
def State.setInteractive (s : State) (b : Bool) : State := { s with launch := { s.launch with interactive := b } }

end Machine
end Sys2Proof
end

