-- ==== Sys2Proof/Safety.lean ====
section
/-! DEFINITION. The terms that claims use: terminal states, what stays the same, what an address names, which
instruction may do what, and the invariants of a run (10_state.md R44). -/

namespace Sys2Proof
namespace Machine

/-! ## Run states -/

/-- The terminal states (40_engine.md R121). -/
def RunState.terminal : RunState → Bool
  | .running => false
  | .suspended => false
  | .haltedNormally => true
  | .haltedOnError => true
  | .haltedOnBudgetExceeded => true
  | .haltedOnInternalFault => true
  | .cancelled => true

/-- The host asserts no RESET at any coming step: the run goes on to its own end. -/
def State.noReset (s : State) : Prop := ∀ h ∈ s.hostInputs, h.reset = false

/-- The state an error halt leaves, in its fields: run_state and err_kind, and nothing else (40_engine.md R118). -/
def State.erred (s : State) (e : ErrorKind) : State :=
  { s with runState := .haltedOnError, errKind := some e }

/-- The state an internal fault leaves, in its fields: run_state and fault_kind, and nothing else (R114). -/
def State.faulted (s : State) (k : FaultKind) : State :=
  { s with runState := .haltedOnInternalFault, faultKind := some k }

/-! ## What stays the same -/

/-- The whole of R20's state is the same. -/
structure SameCore (s t : State) : Prop where
  hands : t.hands = s.hands
  pc : t.pc = s.pc
  icount : t.icount = s.icount
  inCursor : t.inCursor = s.inCursor
  outq : t.outq = s.outq
  runState : t.runState = s.runState
  errKind : t.errKind = s.errKind
  faultKind : t.faultKind = s.faultKind
  mem : t.mem = s.mem

/-- What an instruction alone never touches: the input queue, what the loader placed, and the host's inputs. -/
structure SameSurroundings (s t : State) : Prop where
  inq : t.inq = s.inq
  launch : t.launch = s.launch
  hostInputs : t.hostInputs = s.hostInputs
  freeReads : t.freeReads = s.freeReads

/-- The data a failing step keeps (40_engine.md R118, R120): hands, every cell, both queues, pc and icount. -/
structure SameData (s t : State) : Prop where
  hands : t.hands = s.hands
  mem : t.mem = s.mem
  inCursor : t.inCursor = s.inCursor
  outq : t.outq = s.outq
  pc : t.pc = s.pc
  icount : t.icount = s.icount

/-! ## Addresses, in the spec's own terms -/

/-- p is a Number or a MemoryAddress whose payload is the index n of a cell (20_memory.md R60(a)). -/
def NamesCell (s : State) (p : Value) (n : Nat) : Prop :=
  (p = .number n ∨ p = .memoryAddress n) ∧ n < s.launch.memLen

/-- The cell a parameter names in an addressing mode: itself, or by the pointer it names (R60(a), (d)). -/
def Names (s : State) : AddrMode → Value → Nat → Prop
  | .direct, p, i => NamesCell s p i
  | .indirect, p, i => ∃ n, NamesCell s p n ∧ NamesCell s (s.mem.read n) i

/-- p is no address: Empty, a Character or a ProgramAddress (R57). -/
def NotAddress (p : Value) : Prop :=
  p = .empty ∨ (∃ c, p = .character c) ∨ ∃ n, p = .programAddress n

/-- p is an address of no cell: a negative Number, or a payload of MEM_LEN or more (R56). -/
def OutsideBank (s : State) (p : Value) : Prop :=
  (∃ n : Int, p = .number n ∧ (n < 0 ∨ (s.launch.memLen : Int) ≤ n)) ∨
    ∃ n, p = .memoryAddress n ∧ s.launch.memLen ≤ n

/-- The address error a parameter has in an addressing mode, stage by stage (R56, R58). -/
inductive AddressError (s : State) : AddrMode → Value → ErrorKind → Prop where
  | directType {p} (h : NotAddress p) : AddressError s .direct p .invalidDirectAddressType
  | directRange {p} (h : OutsideBank s p) : AddressError s .direct p .directAddressOutOfRange
  | indirectType {p} (h : NotAddress p) : AddressError s .indirect p .invalidIndirectAddressType
  | indirectRange {p} (h : OutsideBank s p) : AddressError s .indirect p .indirectAddressOutOfRange
  | pointerType {p n} (hn : NamesCell s p n) (h : NotAddress (s.mem.read n)) :
      AddressError s .indirect p .invalidDirectAddressType
  | pointerRange {p n} (hn : NamesCell s p n) (h : OutsideBank s (s.mem.read n)) :
      AddressError s .indirect p .directAddressOutOfRange

/-- v is not a Number. -/
def NotNumber (v : Value) : Prop := ∀ n, v ≠ .number n

end Machine

/-! ## Which instruction may do what -/

/-- The instructions that write hands on success (10_state.md R27). -/
def Instr.writesHands : Instr → Bool
  | .inbox => true
  | .outbox => false
  | .copyFrom _ => true
  | .copyFromIndirect _ => true
  | .copyTo _ => true
  | .copyToIndirect _ => true
  | .add _ => true
  | .addIndirect _ => true
  | .sub _ => true
  | .subIndirect _ => true
  | .bumpUp _ => true
  | .bumpUpIndirect _ => true
  | .bumpDown _ => true
  | .bumpDownIndirect _ => true
  | .jump _ => false
  | .jumpIfZero _ => false
  | .jumpIfNegative _ => false

/-- The addressing mode and parameter of an instruction that stores to a cell: the copies to memory and the bumps. -/
def Instr.storeAddress : Instr → Option (Machine.AddrMode × Value)
  | .copyTo p => some (.direct, p)
  | .copyToIndirect p => some (.indirect, p)
  | .bumpUp p => some (.direct, p)
  | .bumpUpIndirect p => some (.indirect, p)
  | .bumpDown p => some (.direct, p)
  | .bumpDownIndirect p => some (.indirect, p)
  | .inbox => none
  | .outbox => none
  | .copyFrom _ => none
  | .copyFromIndirect _ => none
  | .add _ => none
  | .addIndirect _ => none
  | .sub _ => none
  | .subIndirect _ => none
  | .jump _ => none
  | .jumpIfZero _ => none
  | .jumpIfNegative _ => none

/-- Whether an instruction is an _INDIRECT form. -/
def Instr.indirect : Instr → Bool
  | .copyFromIndirect _ => true
  | .copyToIndirect _ => true
  | .addIndirect _ => true
  | .subIndirect _ => true
  | .bumpUpIndirect _ => true
  | .bumpDownIndirect _ => true
  | .inbox => false
  | .outbox => false
  | .copyFrom _ => false
  | .copyTo _ => false
  | .add _ => false
  | .sub _ => false
  | .bumpUp _ => false
  | .bumpDown _ => false
  | .jump _ => false
  | .jumpIfZero _ => false
  | .jumpIfNegative _ => false

namespace Machine

/-- The column "raised by" of 60_exceptions.md R181, by opcode number (30_encoding.md R85). -/
def ErrorKind.raisers : ErrorKind → List Nat
  | .invalidValue => []
  | .emptyHands => [1, 4, 5]
  | .invalidDirectAddressType => [2, 4, 6, 8, 10, 12, 3, 5, 7, 9, 11, 13]
  | .directAddressOutOfRange => [2, 4, 6, 8, 10, 12, 3, 5, 7, 9, 11, 13]
  | .invalidIndirectAddressType => [3, 5, 7, 9, 11, 13]
  | .indirectAddressOutOfRange => [3, 5, 7, 9, 11, 13]
  | .readingEmptyCell => [2, 3]
  | .badAddendTypeInHands => [6, 7]
  | .badAddendTypeInMemory => [6, 7]
  | .badSubtrahendTypeInHands => [8, 9]
  | .badSubtrahendTypeInMemory => [8, 9]
  | .badTypeForBumpInMemory => [10, 11, 12, 13]
  | .overflow => [6, 7, 8, 9, 10, 11]
  | .underflow => [6, 7, 8, 9, 12, 13]
  | .badJumpConditionType => [15, 16]

/-! ## Invariants -/

/-- Every Value held is legal (10_state.md R21); the room's and the pushes' are the host's duty (R64, R212(a)). -/
structure ValuesLegal (s : State) : Prop where
  hands : s.hands.legal = true
  mem : ∀ c ∈ s.mem, c.2.legal = true
  inq : ∀ v ∈ s.inq, v.legal = true
  outq : ∀ v ∈ s.outq, v.legal = true
  room : ∀ c ∈ s.launch.room, c.2.legal = true
  pushes : ∀ h ∈ s.hostInputs, ∀ v ∈ h.pushes, v.legal = true

/-- The bank and the room are in canonical form, with every listed cell below MEM_LEN (20_memory.md R50). -/
structure BankOk (s : State) : Prop where
  memWf : s.mem.wf
  memIn : ∀ c ∈ s.mem, c.1 < s.launch.memLen
  roomWf : s.launch.room.wf
  roomIn : ∀ c ∈ s.launch.room, c.1 < s.launch.memLen

/-- The sizes the launch duties bound (70_reset_and_hazards.md R212(b), (c)). -/
structure LaunchOk (s : State) : Prop where
  memLen : s.launch.memLen ≤ Config.maxLen
  progLen : s.launch.prog.length ≤ Config.maxLen

/-- A suspended run is interactive and stands at an INBOX that passed the loop-entry checks (41_io.md R132). -/
structure SuspendedAtInbox (s : State) : Prop where
  interactive : s.launch.interactive = true
  budget : s.icount.toNat < Config.maxInstr
  atInbox : ∃ w, s.fetch = some w ∧ decode w = .ok .inbox

/-- The bounds of 10_state.md R28 to R31 and R44. -/
structure CountersBounded (s : State) : Prop where
  launch : LaunchOk s
  icount : s.icount.toNat ≤ Config.maxInstr
  cursorInput : s.inCursor.toNat ≤ s.inq.length
  cursorCount : s.inCursor.toNat ≤ s.icount.toNat
  outCount : s.outq.length ≤ s.icount.toNat
  pc : s.pc.toNat ≤ Config.maxLen
  suspended : s.runState = .suspended → SuspendedAtInbox s

/-- The status fields fit run_state (10_state.md R33, R34, R44), and what each halt tells of the run. -/
structure StatusCoherent (s : State) : Prop where
  errKind : s.errKind ≠ none ↔ s.runState = .haltedOnError
  faultKind : s.faultKind ≠ none ↔ s.runState = .haltedOnInternalFault
  loaderOnly : s.errKind ≠ some .invalidValue
  bankIndex : s.faultKind ≠ some .bankIndex
  suspended : s.runState = .suspended → s.launch.interactive = true
  cancelled : s.runState = .cancelled → s.launch.interactive = true
  normal : s.runState = .haltedNormally → s.launch.interactive = false ∧ s.inq.length ≤ s.inCursor.toNat

/-- The invariant of a run (10_state.md R44), with the bank's form. -/
structure Inv (s : State) : Prop where
  values : ValuesLegal s
  bank : BankOk s
  counters : CountersBounded s
  status : StatusCoherent s

end Machine
end Sys2Proof
end

