-- ==== Sys2Proof/Certificates/Slice0/Obligations.lean ====
section
/-! DEFINITION. The statements about the machine, for the provers. Each says in its docstring which rule of spec/ it
formalises. First the shapes that several statements share. -/

namespace Sys2Proof.Machine

/-! ## Shapes -/

/-- A row of the opcode table with mask 0xFFFF0000: every word that matches it and holds a legal PARAM decodes to the
form with that parameter (30_encoding.md R86, the "Encoding" lines of 42_copy.md to 44_bump.md). -/
def MatchesRow (form : Value → Instr) (pattern : InsnWord) : Prop :=
  ∀ (w : InsnWord) (p : Value), w &&& 0xFFFF0000#32 = pattern → decodeValue (w.extractLsb' 0 16) = some p →
    decode w = .ok (form p)

/-- A row of the opcode table with mask 0xFFFFE000: every word that matches it decodes to the jump to PARAM[12:0]
(the "Encoding" lines of 45_jump.md). -/
def MatchesJumpRow (form : Nat → Instr) (pattern : InsnWord) : Prop :=
  ∀ w : InsnWord, w &&& 0xFFFFE000#32 = pattern → decode w = .ok (form (w.extractLsb' 0 13).toNat)

/-- COPYFROM's rule in one addressing mode (42_copy.md R140, R141). -/
def CopyFromRule (form : Value → Instr) (mode : AddrMode) : Prop :=
  ∀ (s : State) (p : Value),
    (∀ e, AddressError s mode p e → exec (form p) s = .next (s.erred e)) ∧
    (∀ i, Names s mode p i → s.mem.read i = .empty → exec (form p) s = .next (s.erred .readingEmptyCell)) ∧
    (∀ i, Names s mode p i → s.mem.read i ≠ .empty →
      exec (form p) s = .next { s with hands := s.mem.read i, pc := s.pc + 1, icount := s.icount + 1 })

/-- COPYTO's rule in one addressing mode (42_copy.md R142, R143). -/
def CopyToRule (form : Value → Instr) (mode : AddrMode) : Prop :=
  ∀ (s : State) (p : Value),
    (s.hands = .empty → exec (form p) s = .next (s.erred .emptyHands)) ∧
    (∀ e, s.hands ≠ .empty → AddressError s mode p e → exec (form p) s = .next (s.erred e)) ∧
    (∀ i, s.hands ≠ .empty → Names s mode p i →
      exec (form p) s = .next { s with
        mem := s.mem.write i s.hands, hands := .empty, pc := s.pc + 1, icount := s.icount + 1 })

/-- The rule of ADD or SUB in one addressing mode: the operation on integers and the two type errors are given
(43_arith.md R150 to R153). -/
def ArithRule (form : Value → Instr) (mode : AddrMode) (op : Int → Int → Int) (badHands badCell : ErrorKind) : Prop :=
  ∀ (s : State) (p : Value),
    (NotNumber s.hands → exec (form p) s = .next (s.erred badHands)) ∧
    (∀ a e, s.hands = .number a → AddressError s mode p e → exec (form p) s = .next (s.erred e)) ∧
    (∀ a i, s.hands = .number a → Names s mode p i → NotNumber (s.mem.read i) →
      exec (form p) s = .next (s.erred badCell)) ∧
    (∀ a b i, s.hands = .number a → Names s mode p i → s.mem.read i = .number b →
      (999 < op a b → exec (form p) s = .next (s.erred .overflow)) ∧
      (op a b < -999 → exec (form p) s = .next (s.erred .underflow)) ∧
      (-999 ≤ op a b → op a b ≤ 999 →
        exec (form p) s = .next { s with
          hands := .number (op a b), pc := s.pc + 1, icount := s.icount + 1 }))

/-- A bump's rule in one addressing mode: the step and the range error are given (44_bump.md R160 to R163). -/
def BumpRule (form : Value → Instr) (mode : AddrMode) (delta : Int) (outOfRange : Int → Prop) (e : ErrorKind) : Prop :=
  ∀ (s : State) (p : Value),
    (∀ e', AddressError s mode p e' → exec (form p) s = .next (s.erred e')) ∧
    (∀ i, Names s mode p i → NotNumber (s.mem.read i) → exec (form p) s = .next (s.erred .badTypeForBumpInMemory)) ∧
    (∀ b i, Names s mode p i → s.mem.read i = .number b →
      (outOfRange (b + delta) → exec (form p) s = .next (s.erred e)) ∧
      (-999 ≤ b + delta → b + delta ≤ 999 →
        exec (form p) s = .next { s with
          mem := s.mem.write i (.number (b + delta)), hands := .number (b + delta),
          pc := s.pc + 1, icount := s.icount + 1 }))

/-- A conditional jump's rule (45_jump.md R171, R172). -/
def JumpIfRule (form : Nat → Instr) (cond : Int → Prop) : Prop :=
  ∀ (s : State) (t : Nat),
    (NotNumber s.hands → exec (form t) s = .next (s.erred .badJumpConditionType)) ∧
    (∀ n, s.hands = .number n → cond n →
      exec (form t) s = .next { s with pc := BitVec.ofNat 14 t, icount := s.icount + 1 }) ∧
    (∀ n, s.hands = .number n → ¬ cond n →
      exec (form t) s = .next { s with pc := s.pc + 1, icount := s.icount + 1 })

end Sys2Proof.Machine

open Sys2Proof Sys2Proof.Machine

/-! ## Reset and the step -/

/-- 70_reset_and_hazards.md R210: RESET sets every piece of state to its reset value, mem to the room image, and
leaves the program; the input queue stays, with the coming step's pushes in interactive mode (log 3). -/
def Obligations.ResetRestoresEveryPieceOfState : Prop :=
  ∀ s : State, s.hostTick.reset = true →
    step s = .next { s with
      hands := .empty, pc := 0, icount := 0, inCursor := 0, outq := [], runState := .running,
      errKind := none, faultKind := none, mem := s.launch.room,
      inq := s.inqAfterPushes, hostInputs := s.hostInputs.tail }

/-- 10_state.md R43: what State.reset holds of the values the spec gives. The launch values are log 4's and are not
stated. -/
def Obligations.ResetStateHoldsTheSpecsValues : Prop :=
  State.reset.runState = .running ∧ State.reset.pc = 0 ∧ State.reset.hands = .empty ∧ State.reset.icount = 0 ∧
    State.reset.inCursor = 0 ∧ State.reset.outq = [] ∧ State.reset.outCount = 0 ∧ State.reset.errKind = none ∧
    State.reset.faultKind = none ∧ ∀ i, State.reset.mem.read i = State.reset.launch.room.read i

/-- 40_engine.md R116: a step from RUNNING, with no RESET, budget left and a word at pc that decodes, is exec of the
decoded instruction at that state. Around exec the step takes the host's entry off hostInputs and, in interactive mode,
appends its pushes to inq (log 1, log 3); nothing else. -/
def Obligations.StepRunsTheDecodedInstruction : Prop :=
  ∀ (s : State) (w : InsnWord) (i : Instr), s.runState = .running → s.hostTick.reset = false →
    s.icount.toNat < 1000 → s.launch.prog[s.pc.toNat]? = some w → decode w = .ok i →
    step s = exec i { s with
      hostInputs := s.hostInputs.tail
      inq := if s.launch.interactive then s.inq ++ s.hostTick.pushes else s.inq }

/-- 40_engine.md R111 to R113, R116 and 60_exceptions.md R186: the loop-entry checks, in order; the first that ends the
step wins. s.arrive is s with the coming step's pushes arrived (log 1, log 3). -/
def Obligations.LoopEntryChecksInOrder : Prop :=
  ∀ s : State, s.runState = .running → s.hostTick.reset = false →
    (1000 ≤ s.icount.toNat → step s = .next { s.arrive with runState := .haltedOnBudgetExceeded }) ∧
    (s.icount.toNat < 1000 → s.launch.prog.length ≤ s.pc.toNat →
      step s = .next (s.arrive.faulted .pcOutOfRange)) ∧
    (∀ w, s.icount.toNat < 1000 → s.launch.prog[s.pc.toNat]? = some w →
      (∀ e, decode w = .error e → step s = .next (s.arrive.faulted .illegalInstruction)) ∧
      (∀ i, decode w = .ok i → step s = exec i s.arrive))

/-- 40_engine.md R121: in a terminal state a step changes no state of the core; only RESET leaves it, and it starts a
new run. That an idle step answers the same state is the model's choice (log 5). -/
def Obligations.TerminalStatesAreQuiescent : Prop :=
  ∀ s : State, s.runState.terminal = true →
    ∃ t, step s = .next t ∧ t.launch = s.launch ∧
      (s.hostTick.reset = false → SameCore s t) ∧
      (s.hostTick.reset = true → t.runState = .running ∧ t.pc = 0 ∧ t.icount = 0)

/-- 41_io.md R132: what leaves SUSPENDED. A value completes the INBOX; CANCEL cancels; with both, either outcome (by the
free value of log 2; pushes arrive before the step, log 3). -/
def Obligations.SuspendedRunWakesOrIsCancelled : Prop :=
  ∀ s : State, s.runState = .suspended → s.hostTick.reset = false →
    (∀ v, s.inqAfterPushes[s.inCursor.toNat]? = some v → s.hostTick.cancel = false →
      step s = .next { s.arrive with
        hands := v, inCursor := s.inCursor + 1, pc := s.pc + 1, icount := s.icount + 1, runState := .running }) ∧
    (s.inqAfterPushes.length ≤ s.inCursor.toNat → s.hostTick.cancel = true →
      step s = .next { s.arrive with runState := .cancelled }) ∧
    (∀ v, s.inqAfterPushes[s.inCursor.toNat]? = some v → s.hostTick.cancel = true →
      step s = .next { s.arrive with
          hands := v, inCursor := s.inCursor + 1, pc := s.pc + 1, icount := s.icount + 1, runState := .running,
          freeReads := s.freeReads + 1 } ∨
        step s = .next { s.arrive with runState := .cancelled, freeReads := s.freeReads + 1 })

/-- 60_exceptions.md R198: all state survives SUSPENDED unchanged while neither a value nor CANCEL comes. That the step
then answers the waiting state is the model's choice (log 5). -/
def Obligations.SuspendedRunWaitsUnchanged : Prop :=
  ∀ s : State, s.runState = .suspended → s.hostTick.reset = false → s.hostTick.cancel = false →
    s.inqAfterPushes.length ≤ s.inCursor.toNat → ∃ t, step s = .next t ∧ SameCore s t ∧ t.launch = s.launch

/-- 60_exceptions.md R191: CANCEL while SUSPENDED, with no value there, sets CANCELLED and writes nothing else; in any
other state it is ignored; in batch mode it never has an effect. Pushes arrive before the step (log 3). -/
def Obligations.CancelActsOnlyWhileSuspended : Prop :=
  (∀ s : State, s.runState = .suspended → s.hostTick.reset = false → s.hostTick.cancel = true →
    s.inqAfterPushes.length ≤ s.inCursor.toNat → step s = .next { s.arrive with runState := .cancelled }) ∧
  (∀ (s : State) (h : HostTick) (rest : List HostTick) (b : Bool), s.runState ≠ .suspended →
    step { s with hostInputs := { h with cancel := b } :: rest } = step { s with hostInputs := h :: rest }) ∧
  (∀ (s : State) (h : HostTick) (rest : List HostTick) (b : Bool), StatusCoherent s →
    s.launch.interactive = false →
    step { s with hostInputs := { h with cancel := b } :: rest } = step { s with hostInputs := h :: rest })

/-! ## The instructions -/

/-- 41_io.md R130: INBOX takes the next input; on an exhausted input it halts normally in batch mode and suspends in
interactive mode. Its only word is 0x00000000. -/
def Obligations.InboxFollowsItsRule : Prop :=
  (∀ s : State,
    (∀ v, s.inq[s.inCursor.toNat]? = some v →
      exec .inbox s = .next { s with
        hands := v, inCursor := s.inCursor + 1, pc := s.pc + 1, icount := s.icount + 1 }) ∧
    (s.inq.length ≤ s.inCursor.toNat → s.launch.interactive = false →
      exec .inbox s = .next { s with runState := .haltedNormally }) ∧
    (s.inq.length ≤ s.inCursor.toNat → s.launch.interactive = true →
      exec .inbox s = .next { s with runState := .suspended })) ∧
  ∀ w, decode w = .ok .inbox ↔ w = 0x00000000#32

/-- 41_io.md R131: OUTBOX appends hands to the output and keeps it; Empty hands raises EmptyHands. Its only word is
0x08000000. -/
def Obligations.OutboxFollowsItsRule : Prop :=
  (∀ s : State,
    (s.hands = .empty → exec .outbox s = .next (s.erred .emptyHands)) ∧
    (s.hands ≠ .empty →
      exec .outbox s = .next { s with outq := s.outq ++ [s.hands], pc := s.pc + 1, icount := s.icount + 1 })) ∧
  ∀ w, decode w = .ok .outbox ↔ w = 0x08000000#32

/-- 42_copy.md R140 and R141: COPYFROM and COPYFROM_INDIRECT. -/
def Obligations.CopyFromFollowsItsRule : Prop :=
  CopyFromRule .copyFrom .direct ∧ MatchesRow .copyFrom 0x10000000#32 ∧
    CopyFromRule .copyFromIndirect .indirect ∧ MatchesRow .copyFromIndirect 0x18000000#32

/-- 42_copy.md R142 and R143: COPYTO and COPYTO_INDIRECT. -/
def Obligations.CopyToFollowsItsRule : Prop :=
  CopyToRule .copyTo .direct ∧ MatchesRow .copyTo 0x20000000#32 ∧
    CopyToRule .copyToIndirect .indirect ∧ MatchesRow .copyToIndirect 0x28000000#32

/-- 43_arith.md R150 and R151: ADD and ADD_INDIRECT. -/
def Obligations.AddFollowsItsRule : Prop :=
  ArithRule .add .direct (fun a b => a + b) .badAddendTypeInHands .badAddendTypeInMemory ∧
    MatchesRow .add 0x30000000#32 ∧
    ArithRule .addIndirect .indirect (fun a b => a + b) .badAddendTypeInHands .badAddendTypeInMemory ∧
    MatchesRow .addIndirect 0x38000000#32

/-- 43_arith.md R152 and R153: SUB and SUB_INDIRECT, hands minus cell. -/
def Obligations.SubFollowsItsRule : Prop :=
  ArithRule .sub .direct (fun a b => a - b) .badSubtrahendTypeInHands .badSubtrahendTypeInMemory ∧
    MatchesRow .sub 0x40000000#32 ∧
    ArithRule .subIndirect .indirect (fun a b => a - b) .badSubtrahendTypeInHands .badSubtrahendTypeInMemory ∧
    MatchesRow .subIndirect 0x48000000#32

/-- 44_bump.md R160 and R161: BUMP_UP and BUMP_UP_INDIRECT. -/
def Obligations.BumpUpFollowsItsRule : Prop :=
  BumpRule .bumpUp .direct 1 (fun r => 999 < r) .overflow ∧ MatchesRow .bumpUp 0x50000000#32 ∧
    BumpRule .bumpUpIndirect .indirect 1 (fun r => 999 < r) .overflow ∧ MatchesRow .bumpUpIndirect 0x58000000#32

/-- 44_bump.md R162 and R163: BUMP_DOWN and BUMP_DOWN_INDIRECT. -/
def Obligations.BumpDownFollowsItsRule : Prop :=
  BumpRule .bumpDown .direct (-1) (fun r => r < -999) .underflow ∧ MatchesRow .bumpDown 0x60000000#32 ∧
    BumpRule .bumpDownIndirect .indirect (-1) (fun r => r < -999) .underflow ∧
    MatchesRow .bumpDownIndirect 0x68000000#32

/-- 45_jump.md R170: JUMP sets pc to the target, and changes nothing else but icount. -/
def Obligations.JumpFollowsItsRule : Prop :=
  (∀ (s : State) (t : Nat), t ≤ 8191 →
    exec (.jump t) s = .next { s with pc := BitVec.ofNat 14 t, icount := s.icount + 1 } ∧
      (BitVec.ofNat 14 t).toNat = t) ∧
  MatchesJumpRow .jump 0x70008000#32

/-- 45_jump.md R171: JUMP_IF_ZERO. -/
def Obligations.JumpIfZeroFollowsItsRule : Prop :=
  JumpIfRule .jumpIfZero (fun n => n = 0) ∧ MatchesJumpRow .jumpIfZero 0x78008000#32

/-- 45_jump.md R172: JUMP_IF_NEGATIVE. -/
def Obligations.JumpIfNegativeFollowsItsRule : Prop :=
  JumpIfRule .jumpIfNegative (fun n => n < 0) ∧ MatchesJumpRow .jumpIfNegative 0x80008000#32

/-- 45_jump.md R173: a jump to a target past the end commits; the next step faults with PC_OUT_OF_RANGE unless the
budget check fires first. -/
def Obligations.JumpPastTheEndFaultsAtTheNextStep : Prop :=
  ∀ (s : State) (w : InsnWord) (t : Nat), s.runState = .running → s.noReset → s.icount.toNat < 1000 →
    s.launch.prog[s.pc.toNat]? = some w → decode w = .ok (.jump t) → s.launch.prog.length ≤ t →
    ∃ u, step s = .next u ∧ u.runState = .running ∧ u.pc.toNat = t ∧ u.icount = s.icount + 1 ∧
      (s.icount.toNat < 999 → step u = .next (u.arrive.faulted .pcOutOfRange)) ∧
      (s.icount.toNat = 999 → step u = .next { u.arrive with runState := .haltedOnBudgetExceeded })

/-! ## The validator, the ALU and the bank -/

/-- 20_memory.md R56, R58: validate_direct and validate_indirect answer exactly the cell the parameter names, and
otherwise raise exactly the code of the stage that fails. -/
def Obligations.ValidatorFollowsItsStages : Prop :=
  ∀ (s : State) (m : AddrMode) (p : Value),
    (∀ i, s.validate m p = .ok i ↔ Names s m p i) ∧
    (∀ e, s.validate m p = .error (.raise e) ↔ AddressError s m p e)

/-- 20_memory.md R59, R60(b): when the outer stage fails, no cell is read: the answer is the same whatever the bank
holds. -/
def Obligations.OuterStageFailureReadsNoCell : Prop :=
  ∀ (s : State) (m : Memory) (p : Value), NotAddress p ∨ OutsideBank s p →
    State.validateIndirect { s with mem := m } p = s.validateIndirect p ∧
      ∃ e, s.validateIndirect p = .error (.raise e) ∧
        (e = .invalidIndirectAddressType ∨ e = .indirectAddressOutOfRange)

/-- 40_engine.md R124: range_check. -/
def Obligations.RangeCheckByDirection : Prop :=
  ∀ r : Int,
    (999 < r → rangeCheck r = .error (.raise .overflow)) ∧
    (r < -999 → rangeCheck r = .error (.raise .underflow)) ∧
    (-999 ≤ r → r ≤ 999 → rangeCheck r = .ok (.number r))

/-- 20_memory.md R51: MemWrite makes cell i hold v and changes no other cell. On the model's list of cells it also keeps
the canonical form. -/
def Obligations.BankReadsWhatWasWritten : Prop :=
  ∀ (m : Memory) (i : Nat) (v : Value), m.wf →
    (m.write i v).wf ∧ (m.write i v).read i = v ∧ ∀ j, j ≠ i → (m.write i v).read j = m.read j

/-- 20_memory.md R59: an instruction reads at most the cell its parameter names and, in an indirect form, the cell that
one names: two banks that agree there make it answer the same in everything but the bank. -/
def Obligations.InstructionReadsAtMostItsTwoCells : Prop :=
  ∀ (i : Instr) (s u : State) (m : Memory),
    (∀ n, NamesCell s i.param n → m.read n = s.mem.read n ∧
      ∀ k, i.indirect = true → NamesCell s (s.mem.read n) k → m.read k = s.mem.read k) →
    exec i s = .next u → ∃ m', exec i { s with mem := m } = .next { u with mem := m' }

/-! ## Frames and whole-machine rules -/

/-- 10_state.md R29: icount goes up by 1 on every step that completes an instruction without halting, and does not
change on a step that halts or suspends, or that waits. -/
def Obligations.StepCountsExactlyTheCommits : Prop :=
  ∀ s t : State, CountersBounded s → s.hostTick.reset = false → step s = .next t →
    (s.runState.terminal = false ∧ t.runState = .running ∧ t.icount.toNat = s.icount.toNat + 1) ∨
    (t.runState ≠ .running ∧ t.icount = s.icount)

/-- 40_engine.md R125: how pc moves, by opcode, on the step that executes the instruction. -/
def Obligations.PcMovesByOpcode : Prop :=
  (∀ (i : Instr) (s t : State), i.opcode < 14 → s.runState = .running → exec i s = .next t →
    (t.runState = .running → t.pc = s.pc + 1) ∧ (t.runState ≠ .running → t.pc = s.pc)) ∧
  (∀ (s t : State) (k : Nat), exec (.jump k) s = .next t → t.pc = BitVec.ofNat 14 k) ∧
  (∀ (s t : State) (k : Nat), exec (.jumpIfZero k) s = .next t →
    (s.hands = .number 0 → t.pc = BitVec.ofNat 14 k) ∧ (∀ n, s.hands = .number n → n ≠ 0 → t.pc = s.pc + 1) ∧
      (NotNumber s.hands → t.pc = s.pc)) ∧
  (∀ (s t : State) (k : Nat), exec (.jumpIfNegative k) s = .next t →
    (∀ n, s.hands = .number n → n < 0 → t.pc = BitVec.ofNat 14 k) ∧
      (∀ n, s.hands = .number n → 0 ≤ n → t.pc = s.pc + 1) ∧ (NotNumber s.hands → t.pc = s.pc))

/-- 40_engine.md R118 and R120: an instruction that raises, halts or suspends makes none of its writes. -/
def Obligations.FailedInstructionWritesNothing : Prop :=
  ∀ (i : Instr) (s t : State), s.runState = .running → exec i s = .next t → t.runState ≠ .running →
    SameData s t ∧ SameSurroundings s t ∧ t.faultKind = s.faultKind ∧
      (t.runState = .haltedOnError → ∃ e, t = s.erred e) ∧
      (t.runState ≠ .haltedOnError → t.errKind = s.errKind)

/-- The memory frame of every instruction. COPYTO(_INDIRECT), BUMP_UP(_INDIRECT) and BUMP_DOWN(_INDIRECT) store to the
cell their validator answers and leave every other cell; when the validator fails, and for every other instruction, all
cells read as before. Instr.storeAddress is the addressing mode and parameter of a storing instruction. -/
def Obligations.OnlyTheNamedCellIsStoredTo : Prop :=
  (∀ (i : Instr) (s t : State), i.storeAddress = none → exec i s = .next t → ∀ a, t.mem.read a = s.mem.read a) ∧
  (∀ (i : Instr) (s t : State) (m : AddrMode) (p : Value), i.storeAddress = some (m, p) → exec i s = .next t →
    (∀ a, s.validate m p = .ok a → ∀ b, b ≠ a → t.mem.read b = s.mem.read b) ∧
    (∀ h, s.validate m p = .error h → ∀ b, t.mem.read b = s.mem.read b))

/-- The register frame of every instruction (10_state.md R27): OUTBOX and the jumps leave hands; COPYTO(_INDIRECT) leaves
it Empty when it commits; every instruction that does not commit leaves it. -/
def Obligations.HandsChangesOnlyBySuccessfulWriters : Prop :=
  ∀ (i : Instr) (s t : State), s.runState = .running → exec i s = .next t →
    (t.hands ≠ s.hands → t.runState = .running ∧
      i ≠ .outbox ∧ ∀ k, i ≠ .jump k ∧ i ≠ .jumpIfZero k ∧ i ≠ .jumpIfNegative k) ∧
    (∀ p, (i = .copyTo p ∨ i = .copyToIndirect p) → t.runState = .running → t.hands = .empty)

/-- 10_state.md R30, R31: OUTBOX appends one Value to outq and nothing else changes it; a successful INBOX moves
in_cursor by exactly 1 and nothing else moves it. -/
def Obligations.QueuesMoveOnlyByTheirInstruction : Prop :=
  ∀ (i : Instr) (s t : State), s.runState = .running → exec i s = .next t →
    ((i = .outbox ∧ t.runState = .running ∧ t.outq = s.outq ++ [s.hands]) ∨
      (t.outq = s.outq ∧ (i = .outbox → t.runState ≠ .running))) ∧
    ((i = .inbox ∧ t.runState = .running ∧ t.inCursor = s.inCursor + 1) ∨
      (t.inCursor = s.inCursor ∧ (i = .inbox → t.runState ≠ .running)))

/-- What no instruction touches: the input queue, the launch, the host's inputs; and a committing instruction leaves
run_state, err_kind and fault_kind. -/
def Obligations.InstructionsLeaveTheirSurroundings : Prop :=
  ∀ (i : Instr) (s t : State), exec i s = .next t →
    SameSurroundings s t ∧ t.faultKind = s.faultKind ∧
      (t.icount = s.icount + 1 → t.runState = s.runState ∧ t.errKind = s.errKind)

/-- 10_state.md R36 and 20_memory.md R68: no step, RESET included, changes the program or the other launch values; the
input queue only grows at its end, and in batch mode does not change (10_state.md R37, R41). That the room, MEM_LEN and
the mode stand in State and stay is the model's choice (log 20); that RESET keeps the queue and that a batch push is
ignored is log 3's. -/
def Obligations.ProgramIsImmutable : Prop :=
  ∀ s t : State, step s = .next t →
    t.launch = s.launch ∧ (∃ l, t.inq = s.inq ++ l) ∧ (s.launch.interactive = false → t.inq = s.inq)

/-- 60_exceptions.md R181 and R187: an error that an instruction leaves is one that the table gives this opcode. -/
def Obligations.ErrorsComeFromTheirRaisers : Prop :=
  ∀ (i : Instr) (s t : State) (e : ErrorKind), ValuesLegal s → exec i s = .next t → t.errKind = some e →
    s.errKind = none → i.opcode ∈ e.raisers

/-- 20_memory.md R72 and 60_exceptions.md R182: no instruction, on any state, ends in BANK_INDEX or raises
InvalidValue. -/
def Obligations.BankIndexAndInvalidValueAreUnreachable : Prop :=
  ∀ (i : Instr) (s t : State), exec i s = .next t →
    (t.faultKind = some .bankIndex → s.faultKind = some .bankIndex) ∧
    (t.errKind = some .invalidValue → s.errKind = some .invalidValue)

/-- 20_memory.md R63: a step puts on the output strobe the Value of its OUTBOX, once, and nothing else; what it puts
there is what it appends to outq (log 16). -/
def Obligations.OutputStrobeCarriesEachOutputOnce : Prop :=
  ∀ s t : State, s.hostTick.reset = false → step s = .next t →
    t.outq = s.outq ++ outStrobe s t ∧
      (outStrobe s t ≠ [] → outStrobe s t = [s.hands] ∧ s.hands ≠ .empty ∧ s.runState = .running ∧
        ∃ w, s.launch.prog[s.pc.toNat]? = some w ∧ decode w = .ok .outbox)

/-- 20_memory.md R61, R62: interactive mode never reaches HALTED_NORMALLY; batch mode never reaches SUSPENDED or, from a
state that is neither, CANCELLED. -/
def Obligations.ModeDecidesHowInputEnds : Prop :=
  ∀ s t : State, step s = .next t →
    (s.launch.interactive = true → s.runState ≠ .haltedNormally → t.runState ≠ .haltedNormally) ∧
    (s.launch.interactive = false → s.runState ≠ .suspended → s.runState ≠ .cancelled →
      t.runState ≠ .suspended ∧ t.runState ≠ .cancelled)

/-- 70_reset_and_hazards.md R213: a cell written by COPYTO, and the Empty it leaves in hands, are seen by the very next
instruction; so is a bumped cell. -/
def Obligations.StoreIsSeenByTheNextInstruction : Prop :=
  (∀ (s : State) (p : Value) (i : Nat), s.mem.wf → s.hands ≠ .empty → NamesCell s p i →
    ∃ u v, exec (.copyTo p) s = .next u ∧ u.hands = .empty ∧ exec (.copyFrom p) u = .next v ∧ v.hands = s.hands ∧
      exec .outbox u = .next (u.erred .emptyHands)) ∧
  (∀ (s : State) (p : Value) (i : Nat) (b : Int), s.mem.wf → NamesCell s p i → s.mem.read i = .number b →
    -999 ≤ b → b ≤ 498 →
    ∃ u v, exec (.bumpUp p) s = .next u ∧ exec (.add p) u = .next v ∧
      (-500 ≤ b → v.hands = .number (2 * (b + 1))) ∧ (b < -500 → v = u.erred .underflow))

/-! ## Invariants and runs -/

/-- 10_state.md R44: the invariants hold after RESET of any state that meets the launch duties, and every step, RESET
included, keeps them and the bank's length; so they hold in every reachable state. Where they hold, out_count is the
length of outq. Inv says more than R44 lists: the canonical form of the bank and the room is the model's (log 6), and
what SUSPENDED, CANCELLED and HALTED_NORMALLY tell of the mode and the input is read from 20_memory.md R62, 41_io.md
R132 and 40_engine.md R123. -/
def Obligations.InvariantsHoldInEveryReachableState : Prop :=
  (∀ s : State, ValuesLegal s → BankOk s → LaunchOk s → Inv s.restart) ∧
  (∀ s t : State, Inv s → step s = .next t → Inv t ∧ t.launch.memLen = s.launch.memLen) ∧
  (∀ s : State, Inv s → s.outCount.toNat = s.outq.length)

/-- The invariants hold at State.reset (its launch values are log 4's). -/
def Obligations.ResetMeetsTheInvariants : Prop := Inv State.reset

/-- 20_memory.md R50: every step keeps the bank in canonical form with every listed cell below MEM_LEN. -/
def Obligations.BankKeepsItsForm : Prop :=
  ∀ s t : State, BankOk s → step s = .next t → BankOk t

/-- 10_state.md R21: every Value held stays legal, because the engine only writes Values it has read or has
range-checked. -/
def Obligations.EveryValueStaysLegal : Prop :=
  ∀ s t : State, ValuesLegal s → step s = .next t → ValuesLegal t

/-- 40_engine.md R122: in batch mode every run ends within MAX_INSTR + 1 steps, from any state of the invariants and not
from reset alone. A run that ends sooner idles up to the 1001st step: that an idle step answers a next state is the
model's choice (log 5). -/
def Obligations.BatchRunEndsWithinTheBudget : Prop :=
  ∀ s : State, Inv s → s.launch.interactive = false → s.noReset →
    ∃ t, Host.Core.run core 1001 s = .next t ∧ t.runState.terminal = true

/-- 40_engine.md R112, R122: in either mode, at most 1000 instructions complete before the engine halts or suspends: a
run that is RUNNING reaches another run_state within 1001 - icount steps. -/
def Obligations.EngineRunsAtMostTheBudget : Prop :=
  ∀ s : State, s.runState = .running → s.noReset → s.icount.toNat ≤ 1000 →
    ∃ (k : Nat) (t : State), k ≤ 1001 - s.icount.toNat ∧ Host.Core.run core k s = .next t ∧ t.runState ≠ .running

/-- 20_memory.md R61 and 60_exceptions.md R191: in batch mode nothing the host does short of RESET reaches the core: k
steps under two different schedules of host inputs give the same core state. Past the end of the run the steps idle:
that an idle step answers a next state is the model's choice (log 5). -/
def Obligations.BatchRunIgnoresTheHost : Prop :=
  ∀ (s : State) (hs : List HostTick) (k : Nat), StatusCoherent s → s.launch.interactive = false → s.noReset →
    (∀ h ∈ hs, h.reset = false) →
    ∃ t u, Host.Core.run core k s = .next t ∧ Host.Core.run core k { s with hostInputs := hs } = .next u ∧
      SameCore t u

/-! ## Encoding -/

/-- 30_encoding.md R82, R85, R86: decoding the word of any well-formed instruction gives the instruction back. -/
def Obligations.DecodeInvertsEncode : Prop :=
  ∀ i : Instr, i.wellFormed = true → decode (encode i) = .ok i

/-- 30_encoding.md R82, R86: a word has one meaning and no bit of it is dropped: the instruction it decodes to encodes to
the same word, and is well formed. -/
def Obligations.EncodeInvertsDecode : Prop :=
  ∀ (w : InsnWord) (i : Instr), decode w = .ok i → encode i = w ∧ i.wellFormed = true

/-- 30_encoding.md R84: decode_value and encode_value are inverse bijections between the legal Values and the words that
are not ill_formed. -/
def Obligations.ValueWordsAreABijection : Prop :=
  (∀ v : Value, v.legal = true → decodeValue (encodeValue v) = some v) ∧
  (∀ (w : ValueWord) (v : Value), decodeValue w = some v → v.legal = true ∧ encodeValue v = w)

/-- 30_encoding.md R83 and R84: the fields of a Value word, variant by variant, and which words are ill_formed. -/
def Obligations.ValueWordFields : Prop :=
  ∀ w : ValueWord,
    let tag := (w.extractLsb' 13 3).toNat
    let pay := w.extractLsb' 0 13
    (decodeValue w = some .empty ↔ tag = 0 ∧ pay = 0) ∧
    (∀ n : Int, decodeValue w = some (.number n) ↔ tag = 1 ∧ pay.toInt = n ∧ -999 ≤ n ∧ n ≤ 999) ∧
    (∀ c, decodeValue w = some (.character c) ↔ tag = 2 ∧ pay.toNat = c ∧ 0x41 ≤ c ∧ c ≤ 0x5A) ∧
    (∀ n, decodeValue w = some (.memoryAddress n) ↔ tag = 3 ∧ pay.toNat = n) ∧
    (∀ n, decodeValue w = some (.programAddress n) ↔ tag = 4 ∧ pay.toNat = n)

/-- 30_encoding.md R87: exactly the words of clauses (a) to (e) are illegal; running one faults with
ILLEGAL_INSTRUCTION and makes no other change. -/
def Obligations.IllegalWordsFault : Prop :=
  (∀ w : InsnWord, (∃ e, decode w = .error e) ↔
    (w.extractLsb' 16 11 ≠ 0 ∨ 17 ≤ (w.extractLsb' 27 5).toNat ∨ decodeValue (w.extractLsb' 0 16) = none ∨
      ((w.extractLsb' 27 5).toNat ≤ 1 ∧ w.extractLsb' 0 16 ≠ 0) ∨
      (14 ≤ (w.extractLsb' 27 5).toNat ∧ (w.extractLsb' 27 5).toNat ≤ 16 ∧ w.extractLsb' 13 3 ≠ 4))) ∧
  (∀ (s : State) (w : InsnWord) (e : Illegal), s.runState = .running → s.hostTick.reset = false →
    s.icount.toNat < 1000 → s.launch.prog[s.pc.toNat]? = some w → decode w = .error e →
    step s = .next (s.arrive.faulted .illegalInstruction))

/-- Words written out from 30_encoding.md R82, R83 and R85 decode to the instruction they stand for. -/
def Obligations.WordsOfTheSpecDecode : Prop :=
  decode 0b00000000000000000000000000000000#32 = .ok .inbox ∧
    decode 0b00001000000000000000000000000000#32 = .ok .outbox ∧
    decode 0b00010000000000000110000000000011#32 = .ok (.copyFrom (.memoryAddress 3)) ∧
    decode 0b00101000000000000011111111111111#32 = .ok (.copyToIndirect (.number (-1))) ∧
    decode 0b00110000000000000010001111100111#32 = .ok (.add (.number 999)) ∧
    decode 0b01001000000000000100000001000001#32 = .ok (.subIndirect (.letter 'A')) ∧
    decode 0b01011000000000000111111111111111#32 = .ok (.bumpUpIndirect (.memoryAddress 8191)) ∧
    decode 0b01100000000000000000000000000000#32 = .ok (.bumpDown .empty) ∧
    decode 0b10000000000000001001111111111111#32 = .ok (.jumpIfNegative 8191)

/-- 30_encoding.md R93: in OP 2 to 13, OP[0] selects the addressing mode and OP[4:1] the operation, so that each indirect
form's number is its direct form's number plus 1. -/
def Obligations.ModeBitSelectsTheAddressing : Prop :=
  (∀ (w : InsnWord) (i : Instr), decode w = .ok i → 2 ≤ i.opcode → i.opcode ≤ 13 → i.indirect = w.getLsbD 27) ∧
  (∀ (w : InsnWord) (p : Value), decodeValue (w.extractLsb' 0 16) = some p → w.extractLsb' 16 11 = 0 →
    (w.extractLsb' 28 4 = 1 → decode w = .ok (if w.getLsbD 27 then .copyFromIndirect p else .copyFrom p)) ∧
    (w.extractLsb' 28 4 = 2 → decode w = .ok (if w.getLsbD 27 then .copyToIndirect p else .copyTo p)) ∧
    (w.extractLsb' 28 4 = 3 → decode w = .ok (if w.getLsbD 27 then .addIndirect p else .add p)) ∧
    (w.extractLsb' 28 4 = 4 → decode w = .ok (if w.getLsbD 27 then .subIndirect p else .sub p)) ∧
    (w.extractLsb' 28 4 = 5 → decode w = .ok (if w.getLsbD 27 then .bumpUpIndirect p else .bumpUp p)) ∧
    (w.extractLsb' 28 4 = 6 → decode w = .ok (if w.getLsbD 27 then .bumpDownIndirect p else .bumpDown p)))

/-- 30_encoding.md R91: a jump authored with target t, 1-based, assembles to the 0-based ProgramAddress(t - 1); targets
run from 1 to 8192. -/
def Obligations.JumpTargetsAreAuthoredFromOne : Prop :=
  ∀ (m : List Char) (t : Nat) (i : Instr), assembleJump m t = some i ↔
    1 ≤ t ∧ t ≤ 8192 ∧ ((m = "JUMP".toList ∧ i = .jump (t - 1)) ∨ (m = "JUMP_IF_ZERO".toList ∧ i = .jumpIfZero (t - 1)) ∨
      (m = "JUMP_IF_NEGATIVE".toList ∧ i = .jumpIfNegative (t - 1)))

/-! ## The loader and the host's side -/

/-- 70_reset_and_hazards.md R212: a room, a program and an input that the loader accepts, then RESET, give a state of the
invariants; the host's later pushes are legal by its own duty. -/
def Obligations.LoaderEstablishesTheInvariants : Prop :=
  ∀ (s a b c : State) (memLen : Nat) (pairs : List Cell) (is : List Instr) (vs : List Value),
    (∀ h ∈ s.hostInputs, ∀ v ∈ h.pushes, v.legal = true) →
    s.loadRoom memLen pairs = .ok a → a.loadProgram is = .ok b → b.supplyInput vs = .ok c → Inv c.restart

/-- 70_reset_and_hazards.md R212(c): a program the loader accepts holds no illegal word and no jump past its end, and the
word at index n is the n-th instruction's (30_encoding.md R94). -/
def Obligations.LoadedProgramIsTheOneAuthored : Prop :=
  ∀ (s t : State) (is : List Instr), s.loadProgram is = .ok t →
    t.launch.prog.length = is.length ∧
      ∀ (n : Nat) (i : Instr), is[n]? = some i →
        (∃ w, t.launch.prog[n]? = some w ∧ decode w = .ok i) ∧
        ∀ k, i.param = .programAddress k → k < t.launch.prog.length

/-- 60_exceptions.md R182: the loader refuses with InvalidValue exactly the Values out of range and the words that are
ill_formed. -/
def Obligations.LoaderRefusesIllegalValues : Prop :=
  (∀ v : Value, (constructValue v = .error .invalidValue ↔ v.legal = false) ∧
    (v.legal = true → constructValue v = .ok v)) ∧
  (∀ w : ValueWord, constructWord w = .error .invalidValue ↔ decodeValue w = none) ∧
  (∀ n : Int, constructValue (.number n) = .ok (.number n) ↔ -999 ≤ n ∧ n ≤ 999)

/-- 10_state.md R40: the fields of the status registers, the reserved bits that read 0, and writes that are ignored. -/
def Obligations.StatusMapFields : Prop :=
  ∀ s : State,
    ((s.readStatus .status).extractLsb' 0 3 = s.runState.code ∧ (s.readStatus .status).extractLsb' 3 4 = s.errCode ∧
      (s.readStatus .status).extractLsb' 7 2 = s.faultCode ∧
      (s.readStatus .status).getLsbD 9 = s.launch.interactive ∧ (s.readStatus .status).extractLsb' 10 22 = 0) ∧
    ((s.readStatus .pc).extractLsb' 0 14 = s.pc ∧ (s.readStatus .pc).extractLsb' 14 18 = 0) ∧
    (s.readStatus .icount).toNat = s.icount.toNat ∧ (s.readStatus .inCursor).toNat = s.inCursor.toNat ∧
    (s.readStatus .outCount).toNat = s.outq.length % 65536 ∧
    (s.readStatus .hands).toNat = (encodeValue s.hands).toNat ∧
    (s.launch.memLen ≤ 8192 → (s.readStatus .memLen).toNat = s.launch.memLen) ∧
    (s.launch.prog.length ≤ 8192 → (s.readStatus .progLen).toNat = s.launch.prog.length) ∧
    (s.readStatus .maxInstr).toNat = 1000 ∧
    ∀ (r q : StatusReg) (x : StatusWord), (s.writeStatus r x).readStatus q = s.readStatus q

/-- 10_state.md R32, 60_exceptions.md R181 and R184: the codes, NONE being 0. -/
def Obligations.StatusCodes : Prop :=
  [RunState.running, .haltedNormally, .haltedOnError, .haltedOnBudgetExceeded, .haltedOnInternalFault, .suspended,
      .cancelled].map (fun r => r.code.toNat) = [0, 1, 2, 3, 4, 5, 6] ∧
    [ErrorKind.invalidValue, .emptyHands, .invalidDirectAddressType, .directAddressOutOfRange,
      .invalidIndirectAddressType, .indirectAddressOutOfRange, .readingEmptyCell, .badAddendTypeInHands,
      .badAddendTypeInMemory, .badSubtrahendTypeInHands, .badSubtrahendTypeInMemory, .badTypeForBumpInMemory,
      .overflow, .underflow, .badJumpConditionType].map (fun e => e.code.toNat) =
      [1, 2, 3, 4, 5, 6, 7, 8, 9, 10, 11, 12, 13, 14, 15] ∧
    [FaultKind.pcOutOfRange, .illegalInstruction, .bankIndex].map (fun k => k.code.toNat) = [1, 2, 3] ∧
    ∀ s : State, (s.errKind = none ↔ s.errCode = 0) ∧ (s.faultKind = none ↔ s.faultCode = 0)

/-- 40_engine.md R123: exactly the terminal states have an outcome, and each is read from the fields R123 names; at a
normal halt the unread input is empty. The outcome of CANCELLED is the tuple of 10_state.md R20, whose err_kind and
fault_kind are NONE there (log 21). -/
def Obligations.TerminalStatesHaveTheirOutcome : Prop :=
  ∀ s : State, StatusCoherent s →
    (s.outcome ≠ none ↔ s.runState.terminal = true) ∧
    (s.runState = .haltedNormally → s.outcome = some (.normal s.outq [])) ∧
    (s.runState = .haltedOnError → ∃ e, s.errKind = some e ∧ s.outcome = some (.error e s.pc s.icount)) ∧
    (s.runState = .haltedOnBudgetExceeded → s.outcome = some (.budgetExceeded s.pc s.icount)) ∧
    (s.runState = .haltedOnInternalFault →
      ∃ k, s.faultKind = some k ∧ s.outcome = some (.internalFault k s.pc s.icount)) ∧
    (s.runState = .cancelled →
      s.outcome = some (.cancelled s.hands s.pc s.icount s.inCursor s.outq s.mem) ∧
        s.errKind = none ∧ s.faultKind = none)

/-- 20_memory.md R64: the host reads mem, hands and outq in a terminal state or while SUSPENDED, and a cell of the bank
only. -/
def Obligations.HostReadsOnlyStoppedRuns : Prop :=
  ∀ s : State,
    (∀ i v, s.hostReadCell i = some v ↔
      (s.runState.terminal = true ∨ s.runState = .suspended) ∧ i < s.launch.memLen ∧ v = s.mem.read i) ∧
    (∀ v, s.hostReadHands = some v ↔ (s.runState.terminal = true ∨ s.runState = .suspended) ∧ v = s.hands) ∧
    (∀ q, s.hostReadOutput = some q ↔ (s.runState.terminal = true ∨ s.runState = .suspended) ∧ q = s.outq)
end

