-- ==== Sys2Proof/Laws/Encoding.lean ====
section
/-! SUPPORT. The fields of an encoded word. -/

namespace Sys2Proof

@[simp] theorem valueTag_append (t : BitVec 3) (y : BitVec 13) : valueTag (t ++ y) = t := by
  unfold valueTag
  ext i hi
  rw [BitVec.getElem_extractLsb', BitVec.getLsbD_append, if_neg (by omega)]
  simp [BitVec.getLsbD_eq_getElem hi]

@[simp] theorem valuePay_append (t : BitVec 3) (y : BitVec 13) : valuePay (t ++ y) = y := by
  unfold valuePay
  ext i hi
  rw [BitVec.getElem_extractLsb', BitVec.getLsbD_append, if_pos (by omega)]
  simp [BitVec.getLsbD_eq_getElem hi]

/-- A Value word is its tag and its payload. -/
theorem valueWord_split (v : ValueWord) : valueTag v ++ valuePay v = v := by
  unfold valueTag valuePay
  ext i hi
  rw [BitVec.getElem_append]
  split
  · rw [BitVec.getElem_extractLsb']
    simp [BitVec.getLsbD_eq_getElem hi]
  · rw [BitVec.getElem_extractLsb', ← BitVec.getLsbD_eq_getElem]
    congr 1
    omega

@[simp] theorem insnOp_append (o : BitVec 5) (r : BitVec 11) (p : ValueWord) : insnOp (o ++ r ++ p) = o := by
  unfold insnOp
  ext i hi
  rw [BitVec.getElem_extractLsb', BitVec.getLsbD_append, if_neg (by omega),
    BitVec.getLsbD_append, if_neg (by omega), ← BitVec.getLsbD_eq_getElem]
  congr 1
  omega

@[simp] theorem insnRsv_append (o : BitVec 5) (r : BitVec 11) (p : ValueWord) : insnRsv (o ++ r ++ p) = r := by
  unfold insnRsv
  ext i hi
  rw [BitVec.getElem_extractLsb', BitVec.getLsbD_append, if_neg (by omega),
    BitVec.getLsbD_append, if_pos (by omega)]
  simp [BitVec.getLsbD_eq_getElem hi]

@[simp] theorem insnParam_append (o : BitVec 5) (r : BitVec 11) (p : ValueWord) : insnParam (o ++ r ++ p) = p := by
  unfold insnParam
  ext i hi
  rw [BitVec.getElem_extractLsb', BitVec.getLsbD_append, if_pos (by omega)]
  simp [BitVec.getLsbD_eq_getElem hi]

/-- An instruction word is its three fields. -/
theorem insnWord_split (w : InsnWord) : insnOp w ++ insnRsv w ++ insnParam w = w := by
  unfold insnOp insnRsv insnParam
  ext i hi
  rw [BitVec.getElem_append]
  split
  · rw [BitVec.getElem_extractLsb']
    simp [BitVec.getLsbD_eq_getElem hi]
  · rw [BitVec.getElem_append]
    split <;>
    · rw [BitVec.getElem_extractLsb', ← BitVec.getLsbD_eq_getElem]
      congr 1
      omega

@[simp] theorem insnOp_encode (i : Instr) : insnOp (encode i) = BitVec.ofNat 5 i.opcode := insnOp_append _ _ _
@[simp] theorem insnRsv_encode (i : Instr) : insnRsv (encode i) = 0#11 := insnRsv_append _ _ _
@[simp] theorem insnParam_encode (i : Instr) : insnParam (encode i) = encodeValue i.param := insnParam_append _ _ _

/-- An opcode number fits OP and is one of the seventeen. -/
theorem Instr.opcode_le (i : Instr) : i.opcode ≤ 16 := by cases i <;> simp [Instr.opcode]

/-- The payload of an encoded Number is the Number. -/
theorem toInt_ofInt_13 (n : Int) (h1 : -4096 ≤ n) (h2 : n < 4096) : (BitVec.ofInt 13 n).toInt = n := by
  rw [BitVec.toInt_ofInt, Int.bmod_def]
  split <;> omega

/-- The bounds a legal Number has. -/
theorem legal_number {n : Int} (h : (Value.number n).legal = true) : -999 ≤ n ∧ n ≤ 999 := by
  rw [Value.legal, Bool.and_eq_true, decide_eq_true_iff, decide_eq_true_iff] at h
  exact h

end Sys2Proof
end

