-- ==== Sys2Proof/Laws/Memory.lean ====
section
/-! SUPPORT. The bank's laws: reading after writing, and that every operation keeps the canonical form. -/

namespace Sys2Proof.Machine

@[simp] theorem Memory.read_nil (i : Nat) : Memory.read [] i = .empty := rfl

/-- A write leaves every other cell alone. -/
theorem Memory.read_write_ne (m : Memory) (i j : Nat) (v : Value) (h : j ≠ i) :
    (Memory.write m i v).read j = m.read j := by
  induction m with
  | nil => by_cases hv : v = .empty <;> simp [Memory.write, Memory.read, hv, Ne.symm h]
  | cons c m ih =>
    obtain ⟨k, w⟩ := c
    simp only [Memory.write]
    split
    · simp only [Memory.read, ih]
    · split
      · rename_i hk
        split <;> simp [Memory.read, hk, Ne.symm h]
      · split <;> simp [Memory.read, Ne.symm h]

/-- A cell below every listed index is Empty. -/
theorem Memory.read_below (m : Memory) (i : Nat) (h : ∀ c ∈ m, i < c.1) : m.read i = .empty := by
  induction m with
  | nil => rfl
  | cons c m ih =>
    obtain ⟨k, w⟩ := c
    have hk : i < k := h (k, w) (by simp)
    simp only [Memory.read, show k ≠ i by omega, if_false]
    exact ih fun c hc => h c (by simp [hc])

/-- A cell reads what was last written to it. -/
theorem Memory.read_write_same (m : Memory) (hm : m.wf) (i : Nat) (v : Value) :
    (Memory.write m i v).read i = v := by
  induction m with
  | nil => by_cases hv : v = .empty <;> simp [Memory.write, Memory.read, hv]
  | cons c m ih =>
    obtain ⟨k, w⟩ := c
    obtain ⟨hp, hne⟩ := hm
    rw [List.pairwise_cons] at hp
    have ht : Memory.wf m := ⟨hp.2, fun c hc => hne c (by simp [hc])⟩
    simp only [Memory.write]
    split
    · rename_i hk
      simp only [Memory.read, show k ≠ i by omega, if_false, ih ht]
    · split
      · rename_i hk
        split
        · rename_i hv
          rw [hv]
          exact Memory.read_below m i fun c hc => hk ▸ hp.1 c hc
        · simp [Memory.read]
      · split
        · rename_i h1 h2 hv
          rw [hv]
          refine Memory.read_below _ i fun c hc => ?_
          rcases List.mem_cons.mp hc with rfl | hc
          · show i < k
            omega
          · have := hp.1 c hc
            simp only at this
            omega
        · simp [Memory.read]

/-- The listed cells after a write: the written one, or one listed before. -/
theorem Memory.mem_write (m : Memory) (i : Nat) (v : Value) (c : Cell) (h : c ∈ Memory.write m i v) :
    (c = (i, v) ∧ v ≠ .empty) ∨ c ∈ m := by
  induction m with
  | nil =>
    by_cases hv : v = .empty
    · simp [Memory.write, hv] at h
    · simp [Memory.write, hv] at h
      exact .inl ⟨h, hv⟩
  | cons d m ih =>
    obtain ⟨k, w⟩ := d
    simp only [Memory.write] at h
    split at h
    · rcases List.mem_cons.mp h with rfl | h
      · simp
      · rcases ih h with h | h
        · exact .inl h
        · simp [h]
    · split at h
      · split at h
        · simp [h]
        · rename_i hv
          rcases List.mem_cons.mp h with rfl | h
          · exact .inl ⟨rfl, hv⟩
          · simp [h]
      · split at h
        · exact .inr h
        · rename_i hv
          rcases List.mem_cons.mp h with rfl | h
          · exact .inl ⟨rfl, hv⟩
          · exact .inr h

/-- A write keeps the canonical form. -/
theorem Memory.write_wf (m : Memory) (hm : m.wf) (i : Nat) (v : Value) : (Memory.write m i v).wf := by
  have hne : ∀ c ∈ Memory.write m i v, c.2 ≠ Value.empty := fun c hc => by
    rcases Memory.mem_write m i v c hc with ⟨rfl, hv⟩ | h
    · exact hv
    · exact hm.2 c h
  refine ⟨?_, hne⟩
  clear hne
  induction m with
  | nil => by_cases hv : v = .empty <;> simp [Memory.write, hv]
  | cons c m ih =>
    obtain ⟨k, w⟩ := c
    obtain ⟨hp, hne⟩ := hm
    rw [List.pairwise_cons] at hp
    have ht : Memory.wf m := ⟨hp.2, fun c hc => hne c (by simp [hc])⟩
    simp only [Memory.write]
    split
    · rename_i hk
      refine List.pairwise_cons.mpr ⟨fun c hc => ?_, ih ht⟩
      rcases Memory.mem_write m i v c hc with ⟨rfl, -⟩ | h
      · exact hk
      · exact hp.1 c h
    · split
      · rename_i h1 hk
        split
        · exact hp.2
        · exact List.pairwise_cons.mpr ⟨fun c hc => hk ▸ hp.1 c hc, hp.2⟩
      · split
        · exact List.pairwise_cons.mpr hp
        · rename_i h1 h2 hv
          refine List.pairwise_cons.mpr ⟨fun c hc => ?_, List.pairwise_cons.mpr hp⟩
          rcases List.mem_cons.mp hc with rfl | hc
          · show i < k
            omega
          · have := hp.1 c hc
            simp only at this
            show i < c.1
            omega

/-- A commit's cell write keeps the canonical form. -/
theorem Memory.commit_wf (m : Memory) (hm : m.wf) (c : Option Cell) : (m.commit c).wf := by
  cases c with
  | none => exact hm
  | some c => exact Memory.write_wf m hm c.1 c.2

/-- A bank built from pairs is in canonical form. -/
theorem Memory.ofPairs_wf (pairs : List Cell) : (Memory.ofPairs pairs).wf := by
  have : ∀ (m : Memory), m.wf → Memory.wf (pairs.foldl (fun m c => Memory.write m c.1 c.2) m) := by
    induction pairs with
    | nil => exact fun m hm => hm
    | cons c cs ih => exact fun m hm => ih _ (Memory.write_wf m hm c.1 c.2)
  exact this [] ⟨List.Pairwise.nil, by simp⟩

/-- A bank built from pairs lists only cells of the pairs. -/
theorem Memory.mem_ofPairs (pairs : List Cell) (c : Cell) (h : c ∈ Memory.ofPairs pairs) : c ∈ pairs := by
  have key : ∀ (cs : List Cell) (m : Memory), c ∈ cs.foldl (fun m c => Memory.write m c.1 c.2) m → c ∈ cs ∨ c ∈ m := by
    intro cs
    induction cs with
    | nil => exact fun m h => .inr h
    | cons d cs ih =>
      intro m h
      rcases ih _ h with h | h
      · simp [h]
      · rcases Memory.mem_write m d.1 d.2 c h with ⟨rfl, -⟩ | h
        · simp
        · exact .inr h
  rcases key pairs [] h with h | h
  · exact h
  · simp at h

/-- A listed cell of a canonical bank reads what is listed. -/
theorem Memory.read_mem (m : Memory) (i : Nat) : m.read i = .empty ∨ (i, m.read i) ∈ m := by
  induction m with
  | nil => exact .inl rfl
  | cons c m ih =>
    obtain ⟨k, w⟩ := c
    simp only [Memory.read]
    split
    · rename_i h
      exact .inr (by simp [h])
    · rcases ih with h | h
      · exact .inl h
      · exact .inr (by simp [h])

end Sys2Proof.Machine
end

