-- ==== Sys2Proof/Laws/State.lean ====
section
/-! SUPPORT. What each update of the state leaves in each field, so that no later proof unfolds a record update. -/

namespace Sys2Proof.Machine

/-- A halting step leaves icount on this hardware (ICOUNT_COUNTS_HALTING_STEP is false). -/
@[simp] theorem State.haltCount_eq (s : State) : s.haltCount = s.icount := rfl

/-- An internal fault leaves icount on this hardware. -/
@[simp] theorem State.faultCount_eq (s : State) (k : FaultKind) : s.faultCount k = s.icount := by cases k <;> rfl

@[simp] theorem State.halt_raise (s : State) (e : ErrorKind) : s.halt (.raise e) = s.raise e := rfl
@[simp] theorem State.halt_fault (s : State) (k : FaultKind) : s.halt (.fault k) = s.internalFault k := rfl
@[simp] theorem State.halt_normally (s : State) : s.halt .normally = s.haltNormally := rfl
@[simp] theorem State.halt_suspend (s : State) : s.halt .suspend = s.suspend := rfl

@[simp] theorem State.conclude_ok (s : State) (c : Commit) : s.conclude (.ok c) = s.commit c := rfl
@[simp] theorem State.conclude_error (s : State) (h : Halt) : s.conclude (.error h) = s.halt h := rfl

@[simp] theorem State.commit_hands (s : State) (c : Commit) : (s.commit c).hands = c.hands := rfl
@[simp] theorem State.commit_pc (s : State) (c : Commit) : (s.commit c).pc = c.nextPc := rfl
@[simp] theorem State.commit_icount (s : State) (c : Commit) : (s.commit c).icount = s.icount + 1 := rfl
@[simp] theorem State.commit_inCursor (s : State) (c : Commit) : (s.commit c).inCursor = if c.takesInput then s.inCursor + 1 else s.inCursor := rfl
@[simp] theorem State.commit_outq (s : State) (c : Commit) : (s.commit c).outq = s.outq ++ c.output.toList := rfl
@[simp] theorem State.commit_runState (s : State) (c : Commit) : (s.commit c).runState = s.runState := rfl
@[simp] theorem State.commit_errKind (s : State) (c : Commit) : (s.commit c).errKind = s.errKind := rfl
@[simp] theorem State.commit_faultKind (s : State) (c : Commit) : (s.commit c).faultKind = s.faultKind := rfl
@[simp] theorem State.commit_mem (s : State) (c : Commit) : (s.commit c).mem = s.mem.commit c.cell := rfl
@[simp] theorem State.commit_inq (s : State) (c : Commit) : (s.commit c).inq = s.inq := rfl
@[simp] theorem State.commit_launch (s : State) (c : Commit) : (s.commit c).launch = s.launch := rfl
@[simp] theorem State.commit_hostInputs (s : State) (c : Commit) : (s.commit c).hostInputs = s.hostInputs := rfl
@[simp] theorem State.commit_freeReads (s : State) (c : Commit) : (s.commit c).freeReads = s.freeReads := rfl

@[simp] theorem State.raise_hands (s : State) (e : ErrorKind) : (s.raise e).hands = s.hands := rfl
@[simp] theorem State.raise_pc (s : State) (e : ErrorKind) : (s.raise e).pc = s.pc := rfl
@[simp] theorem State.raise_icount (s : State) (e : ErrorKind) : (s.raise e).icount = s.icount := rfl
@[simp] theorem State.raise_inCursor (s : State) (e : ErrorKind) : (s.raise e).inCursor = s.inCursor := rfl
@[simp] theorem State.raise_outq (s : State) (e : ErrorKind) : (s.raise e).outq = s.outq := rfl
@[simp] theorem State.raise_runState (s : State) (e : ErrorKind) : (s.raise e).runState = .haltedOnError := rfl
@[simp] theorem State.raise_errKind (s : State) (e : ErrorKind) : (s.raise e).errKind = some e := rfl
@[simp] theorem State.raise_faultKind (s : State) (e : ErrorKind) : (s.raise e).faultKind = s.faultKind := rfl
@[simp] theorem State.raise_mem (s : State) (e : ErrorKind) : (s.raise e).mem = s.mem := rfl
@[simp] theorem State.raise_inq (s : State) (e : ErrorKind) : (s.raise e).inq = s.inq := rfl
@[simp] theorem State.raise_launch (s : State) (e : ErrorKind) : (s.raise e).launch = s.launch := rfl
@[simp] theorem State.raise_hostInputs (s : State) (e : ErrorKind) : (s.raise e).hostInputs = s.hostInputs := rfl
@[simp] theorem State.raise_freeReads (s : State) (e : ErrorKind) : (s.raise e).freeReads = s.freeReads := rfl

@[simp] theorem State.internalFault_hands (s : State) (k : FaultKind) : (s.internalFault k).hands = s.hands := rfl
@[simp] theorem State.internalFault_pc (s : State) (k : FaultKind) : (s.internalFault k).pc = s.pc := rfl
@[simp] theorem State.internalFault_icount (s : State) (k : FaultKind) : (s.internalFault k).icount = s.icount := State.faultCount_eq s k
@[simp] theorem State.internalFault_inCursor (s : State) (k : FaultKind) : (s.internalFault k).inCursor = s.inCursor := rfl
@[simp] theorem State.internalFault_outq (s : State) (k : FaultKind) : (s.internalFault k).outq = s.outq := rfl
@[simp] theorem State.internalFault_runState (s : State) (k : FaultKind) : (s.internalFault k).runState = .haltedOnInternalFault := rfl
@[simp] theorem State.internalFault_errKind (s : State) (k : FaultKind) : (s.internalFault k).errKind = s.errKind := rfl
@[simp] theorem State.internalFault_faultKind (s : State) (k : FaultKind) : (s.internalFault k).faultKind = some k := rfl
@[simp] theorem State.internalFault_mem (s : State) (k : FaultKind) : (s.internalFault k).mem = s.mem := rfl
@[simp] theorem State.internalFault_inq (s : State) (k : FaultKind) : (s.internalFault k).inq = s.inq := rfl
@[simp] theorem State.internalFault_launch (s : State) (k : FaultKind) : (s.internalFault k).launch = s.launch := rfl
@[simp] theorem State.internalFault_hostInputs (s : State) (k : FaultKind) : (s.internalFault k).hostInputs = s.hostInputs := rfl
@[simp] theorem State.internalFault_freeReads (s : State) (k : FaultKind) : (s.internalFault k).freeReads = s.freeReads := rfl

@[simp] theorem State.haltNormally_hands (s : State) : (s.haltNormally).hands = s.hands := rfl
@[simp] theorem State.haltNormally_pc (s : State) : (s.haltNormally).pc = s.pc := rfl
@[simp] theorem State.haltNormally_icount (s : State) : (s.haltNormally).icount = s.icount := rfl
@[simp] theorem State.haltNormally_inCursor (s : State) : (s.haltNormally).inCursor = s.inCursor := rfl
@[simp] theorem State.haltNormally_outq (s : State) : (s.haltNormally).outq = s.outq := rfl
@[simp] theorem State.haltNormally_runState (s : State) : (s.haltNormally).runState = .haltedNormally := rfl
@[simp] theorem State.haltNormally_errKind (s : State) : (s.haltNormally).errKind = s.errKind := rfl
@[simp] theorem State.haltNormally_faultKind (s : State) : (s.haltNormally).faultKind = s.faultKind := rfl
@[simp] theorem State.haltNormally_mem (s : State) : (s.haltNormally).mem = s.mem := rfl
@[simp] theorem State.haltNormally_inq (s : State) : (s.haltNormally).inq = s.inq := rfl
@[simp] theorem State.haltNormally_launch (s : State) : (s.haltNormally).launch = s.launch := rfl
@[simp] theorem State.haltNormally_hostInputs (s : State) : (s.haltNormally).hostInputs = s.hostInputs := rfl
@[simp] theorem State.haltNormally_freeReads (s : State) : (s.haltNormally).freeReads = s.freeReads := rfl

@[simp] theorem State.haltOnBudget_hands (s : State) : (s.haltOnBudget).hands = s.hands := rfl
@[simp] theorem State.haltOnBudget_pc (s : State) : (s.haltOnBudget).pc = s.pc := rfl
@[simp] theorem State.haltOnBudget_icount (s : State) : (s.haltOnBudget).icount = s.icount := rfl
@[simp] theorem State.haltOnBudget_inCursor (s : State) : (s.haltOnBudget).inCursor = s.inCursor := rfl
@[simp] theorem State.haltOnBudget_outq (s : State) : (s.haltOnBudget).outq = s.outq := rfl
@[simp] theorem State.haltOnBudget_runState (s : State) : (s.haltOnBudget).runState = .haltedOnBudgetExceeded := rfl
@[simp] theorem State.haltOnBudget_errKind (s : State) : (s.haltOnBudget).errKind = s.errKind := rfl
@[simp] theorem State.haltOnBudget_faultKind (s : State) : (s.haltOnBudget).faultKind = s.faultKind := rfl
@[simp] theorem State.haltOnBudget_mem (s : State) : (s.haltOnBudget).mem = s.mem := rfl
@[simp] theorem State.haltOnBudget_inq (s : State) : (s.haltOnBudget).inq = s.inq := rfl
@[simp] theorem State.haltOnBudget_launch (s : State) : (s.haltOnBudget).launch = s.launch := rfl
@[simp] theorem State.haltOnBudget_hostInputs (s : State) : (s.haltOnBudget).hostInputs = s.hostInputs := rfl
@[simp] theorem State.haltOnBudget_freeReads (s : State) : (s.haltOnBudget).freeReads = s.freeReads := rfl

@[simp] theorem State.suspend_hands (s : State) : (s.suspend).hands = s.hands := rfl
@[simp] theorem State.suspend_pc (s : State) : (s.suspend).pc = s.pc := rfl
@[simp] theorem State.suspend_icount (s : State) : (s.suspend).icount = s.icount := rfl
@[simp] theorem State.suspend_inCursor (s : State) : (s.suspend).inCursor = s.inCursor := rfl
@[simp] theorem State.suspend_outq (s : State) : (s.suspend).outq = s.outq := rfl
@[simp] theorem State.suspend_runState (s : State) : (s.suspend).runState = .suspended := rfl
@[simp] theorem State.suspend_errKind (s : State) : (s.suspend).errKind = s.errKind := rfl
@[simp] theorem State.suspend_faultKind (s : State) : (s.suspend).faultKind = s.faultKind := rfl
@[simp] theorem State.suspend_mem (s : State) : (s.suspend).mem = s.mem := rfl
@[simp] theorem State.suspend_inq (s : State) : (s.suspend).inq = s.inq := rfl
@[simp] theorem State.suspend_launch (s : State) : (s.suspend).launch = s.launch := rfl
@[simp] theorem State.suspend_hostInputs (s : State) : (s.suspend).hostInputs = s.hostInputs := rfl
@[simp] theorem State.suspend_freeReads (s : State) : (s.suspend).freeReads = s.freeReads := rfl

@[simp] theorem State.cancelRun_hands (s : State) : (s.cancelRun).hands = s.hands := rfl
@[simp] theorem State.cancelRun_pc (s : State) : (s.cancelRun).pc = s.pc := rfl
@[simp] theorem State.cancelRun_icount (s : State) : (s.cancelRun).icount = s.icount := rfl
@[simp] theorem State.cancelRun_inCursor (s : State) : (s.cancelRun).inCursor = s.inCursor := rfl
@[simp] theorem State.cancelRun_outq (s : State) : (s.cancelRun).outq = s.outq := rfl
@[simp] theorem State.cancelRun_runState (s : State) : (s.cancelRun).runState = .cancelled := rfl
@[simp] theorem State.cancelRun_errKind (s : State) : (s.cancelRun).errKind = s.errKind := rfl
@[simp] theorem State.cancelRun_faultKind (s : State) : (s.cancelRun).faultKind = s.faultKind := rfl
@[simp] theorem State.cancelRun_mem (s : State) : (s.cancelRun).mem = s.mem := rfl
@[simp] theorem State.cancelRun_inq (s : State) : (s.cancelRun).inq = s.inq := rfl
@[simp] theorem State.cancelRun_launch (s : State) : (s.cancelRun).launch = s.launch := rfl
@[simp] theorem State.cancelRun_hostInputs (s : State) : (s.cancelRun).hostInputs = s.hostInputs := rfl
@[simp] theorem State.cancelRun_freeReads (s : State) : (s.cancelRun).freeReads = s.freeReads := rfl

@[simp] theorem State.restart_hands (s : State) : (s.restart).hands = .empty := rfl
@[simp] theorem State.restart_pc (s : State) : (s.restart).pc = 0 := rfl
@[simp] theorem State.restart_icount (s : State) : (s.restart).icount = 0 := rfl
@[simp] theorem State.restart_inCursor (s : State) : (s.restart).inCursor = 0 := rfl
@[simp] theorem State.restart_outq (s : State) : (s.restart).outq = [] := rfl
@[simp] theorem State.restart_runState (s : State) : (s.restart).runState = .running := rfl
@[simp] theorem State.restart_errKind (s : State) : (s.restart).errKind = none := rfl
@[simp] theorem State.restart_faultKind (s : State) : (s.restart).faultKind = none := rfl
@[simp] theorem State.restart_mem (s : State) : (s.restart).mem = s.launch.room := rfl
@[simp] theorem State.restart_inq (s : State) : (s.restart).inq = s.inq := rfl
@[simp] theorem State.restart_launch (s : State) : (s.restart).launch = s.launch := rfl
@[simp] theorem State.restart_hostInputs (s : State) : (s.restart).hostInputs = s.hostInputs := rfl
@[simp] theorem State.restart_freeReads (s : State) : (s.restart).freeReads = s.freeReads := rfl

@[simp] theorem State.arrive_hands (s : State) : (s.arrive).hands = s.hands := rfl
@[simp] theorem State.arrive_pc (s : State) : (s.arrive).pc = s.pc := rfl
@[simp] theorem State.arrive_icount (s : State) : (s.arrive).icount = s.icount := rfl
@[simp] theorem State.arrive_inCursor (s : State) : (s.arrive).inCursor = s.inCursor := rfl
@[simp] theorem State.arrive_outq (s : State) : (s.arrive).outq = s.outq := rfl
@[simp] theorem State.arrive_runState (s : State) : (s.arrive).runState = s.runState := rfl
@[simp] theorem State.arrive_errKind (s : State) : (s.arrive).errKind = s.errKind := rfl
@[simp] theorem State.arrive_faultKind (s : State) : (s.arrive).faultKind = s.faultKind := rfl
@[simp] theorem State.arrive_mem (s : State) : (s.arrive).mem = s.mem := rfl
@[simp] theorem State.arrive_inq (s : State) : (s.arrive).inq = s.inqAfterPushes := rfl
@[simp] theorem State.arrive_launch (s : State) : (s.arrive).launch = s.launch := rfl
@[simp] theorem State.arrive_hostInputs (s : State) : (s.arrive).hostInputs = s.hostInputs.tail := rfl
@[simp] theorem State.arrive_freeReads (s : State) : (s.arrive).freeReads = s.freeReads := rfl

/-- The two spellings of an error halt: the operation, and the fields it writes. -/
theorem State.raise_eq (s : State) (e : ErrorKind) :
    s.raise e = { s with runState := .haltedOnError, errKind := some e } := rfl

/-- The two spellings of an internal fault. -/
theorem State.internalFault_eq (s : State) (k : FaultKind) :
    s.internalFault k = { s with runState := .haltedOnInternalFault, faultKind := some k } := by
  cases k <;> rfl

end Sys2Proof.Machine
end

