-- ==== Sys2Proof/Laws/Operands.lean ====
section
/-! SUPPORT. What each shared check can answer: the value and why it is right, or the one halt. -/

namespace Sys2Proof.Machine

/-- A chain of checks answers a value exactly when both parts do. -/
theorem Checked.bind_ok {α β : Type} {x : Checked α} {f : α → Checked β} {b : β} :
    (x >>= f) = .ok b ↔ ∃ a, x = .ok a ∧ f a = .ok b := by
  cases x <;> simp [bind, Except.bind]

/-- A chain of checks halts in its first part, or in its second after the first passed. -/
theorem Checked.bind_error {α β : Type} {x : Checked α} {f : α → Checked β} {h : Halt} :
    (x >>= f) = .error h ↔ x = .error h ∨ ∃ a, x = .ok a ∧ f a = .error h := by
  cases x <;> simp [bind, Except.bind]

@[simp] theorem Checked.ok_bind {α β : Type} (a : α) (f : α → Checked β) :
    ((.ok a : Checked α) >>= f) = f a := rfl

@[simp] theorem Checked.error_bind {α β : Type} (h : Halt) (f : α → Checked β) :
    ((.error h : Checked α) >>= f) = .error h := rfl

/-- A stage of the validator passes exactly on an address kind whose payload is an index of the bank. -/
theorem checkAddress_ok_iff {bt oor : ErrorKind} {len : Nat} {p : Value} {i : Nat} :
    checkAddress bt oor len p = .ok i ↔ isAddressKind p = true ∧ payload p = i ∧ i < len := by
  unfold checkAddress
  split
  · simp [*]
  · split
    · rename_i h1 h2
      simp only [reduceCtorEq, false_iff, not_and]
      omega
    · rename_i h1 h2
      simp only [Bool.not_eq_false] at h1
      simp only [Except.ok.injEq, h1, true_and]
      omega

/-- A stage of the validator fails with one of its two codes. -/
theorem checkAddress_error {bt oor : ErrorKind} {len : Nat} {p : Value} {h : Halt}
    (hc : checkAddress bt oor len p = .error h) : h = .raise bt ∨ h = .raise oor := by
  unfold checkAddress at hc
  split at hc
  · cases hc
    exact .inl rfl
  · split at hc
    · cases hc
      exact .inr rfl
    · cases hc

/-- A read of a cell of the bank answers the cell. -/
theorem State.memRead_of_lt {s : State} {i : Nat} (h : i < s.launch.memLen) : s.memRead i = .ok (s.mem.read i) :=
  if_pos h

/-- A write to a cell of the bank is accepted. -/
theorem State.memWrite_of_lt {s : State} {i : Nat} {v : Value} (h : i < s.launch.memLen) :
    s.memWrite i v = .ok (i, v) := if_pos h

/-- A read that answers is of a cell of the bank. -/
theorem State.memRead_ok_iff {s : State} {i : Nat} {v : Value} :
    s.memRead i = .ok v ↔ i < s.launch.memLen ∧ v = s.mem.read i := by
  unfold State.memRead
  split <;> simp [*, eq_comm]

/-- The validator answers cells of the bank only. -/
theorem State.validate_lt {s : State} {m : AddrMode} {p : Value} {i : Nat} (h : s.validate m p = .ok i) :
    i < s.launch.memLen := by
  cases m with
  | direct => exact (checkAddress_ok_iff.mp h).2.2
  | indirect =>
    obtain ⟨n, -, h⟩ := Checked.bind_ok.mp h
    obtain ⟨q, -, h⟩ := Checked.bind_ok.mp h
    exact (checkAddress_ok_iff.mp h).2.2

/-- The codes the validator can raise in an addressing mode. -/
def addressCodes : AddrMode → List ErrorKind
  | .direct => [.invalidDirectAddressType, .directAddressOutOfRange]
  | .indirect =>
    [.invalidIndirectAddressType, .indirectAddressOutOfRange, .invalidDirectAddressType, .directAddressOutOfRange]

/-- The validator fails by raising a code of its mode, never by an internal fault. -/
theorem State.validate_error {s : State} {m : AddrMode} {p : Value} {h : Halt} (hv : s.validate m p = .error h) :
    ∃ e ∈ addressCodes m, h = .raise e := by
  cases m with
  | direct =>
    rcases checkAddress_error hv with rfl | rfl <;> simp [addressCodes]
  | indirect =>
    rcases Checked.bind_error.mp hv with hv | ⟨n, hn, hv⟩
    · rcases checkAddress_error hv with rfl | rfl <;> simp [addressCodes]
    · rw [State.memRead_of_lt (checkAddress_ok_iff.mp hn).2.2, Checked.ok_bind] at hv
      rcases checkAddress_error hv with rfl | rfl <;> simp [addressCodes]

/-- numberOr answers exactly on a Number. -/
theorem numberOr_ok_iff {e : ErrorKind} {v : Value} {n : Int} : numberOr e v = .ok n ↔ v = .number n := by
  cases v <;> simp [numberOr]

@[simp] theorem numberOr_number (e : ErrorKind) (n : Int) : numberOr e (.number n) = .ok n := rfl

/-- numberOr fails with its code, on anything but a Number. -/
theorem numberOr_error_iff {e : ErrorKind} {v : Value} {h : Halt} :
    numberOr e v = .error h ↔ NotNumber v ∧ h = .raise e := by
  cases v <;> simp [numberOr, NotNumber, eq_comm]

/-- nonEmptyOr answers the Value itself, when it is not Empty. -/
theorem nonEmptyOr_ok_iff {e : ErrorKind} {v w : Value} : nonEmptyOr e v = .ok w ↔ v ≠ .empty ∧ w = v := by
  unfold nonEmptyOr
  split <;> simp [*, eq_comm]

/-- nonEmptyOr fails with its code, on Empty. -/
theorem nonEmptyOr_error_iff {e : ErrorKind} {v : Value} {h : Halt} :
    nonEmptyOr e v = .error h ↔ v = .empty ∧ h = .raise e := by
  unfold nonEmptyOr
  split <;> simp [*, eq_comm]

/-- The range check, case by case. -/
theorem rangeCheck_cases (r : Int) :
    (999 < r ∧ rangeCheck r = .error (.raise .overflow)) ∨ (r < -999 ∧ rangeCheck r = .error (.raise .underflow)) ∨
      (-999 ≤ r ∧ r ≤ 999 ∧ rangeCheck r = .ok (.number r)) := by
  by_cases h1 : 999 < r
  · exact .inl ⟨h1, if_pos h1⟩
  by_cases h2 : r < -999
  · exact .inr (.inl ⟨h2, (if_neg h1).trans (if_pos h2)⟩)
  · exact .inr (.inr ⟨by omega, by omega, (if_neg h1).trans (if_neg h2)⟩)

/-- The range check keeps a result in [-999, 999] as a Number. -/
theorem rangeCheck_ok_iff {r : Int} {v : Value} : rangeCheck r = .ok v ↔ -999 ≤ r ∧ r ≤ 999 ∧ v = .number r := by
  rcases rangeCheck_cases r with ⟨h, hr⟩ | ⟨h, hr⟩ | ⟨h1, h2, hr⟩
  · rw [hr]
    simp only [reduceCtorEq, false_iff, not_and]
    omega
  · rw [hr]
    simp only [reduceCtorEq, false_iff, not_and]
    omega
  · rw [hr]
    simp [h1, h2, eq_comm]

/-- The range check fails by the direction of the result. -/
theorem rangeCheck_error_iff {r : Int} {h : Halt} :
    rangeCheck r = .error h ↔ (999 < r ∧ h = .raise .overflow) ∨ (r < -999 ∧ h = .raise .underflow) := by
  rcases rangeCheck_cases r with ⟨h1, hr⟩ | ⟨h1, hr⟩ | ⟨h1, h2, hr⟩
  · rw [hr]
    simp [h1, show ¬ r < -999 by omega, eq_comm]
  · rw [hr]
    simp [h1, show ¬ 999 < r by omega, eq_comm]
  · rw [hr]
    simp [show ¬ 999 < r by omega, show ¬ r < -999 by omega]

end Sys2Proof.Machine
end

