-- ==== Sys2Proof/Laws/Exec.lean ====
section
/-! SUPPORT. What an instruction can do, said once: exec answers a commit of a known shape, an error that the
instruction may raise, or an INBOX that finds no input. Every invariant and frame follows from exec_cases. -/

namespace Sys2Proof.Machine

/-- What a commit of instruction i from s holds. -/
structure CommitShape (i : Instr) (s : State) (c : Commit) : Prop where
  /-- Only an instruction that writes hands changes it. -/
  hands : i.writesHands = false → c.hands = s.hands
  /-- The new hands is Empty, the old hands, the input taken, a cell, or a Number in range. -/
  handsFrom : c.hands = .empty ∨ c.hands = s.hands ∨ s.nextInput = some c.hands ∨
    (∃ n, c.hands = s.mem.read n) ∨ ∃ n : Int, -999 ≤ n ∧ n ≤ 999 ∧ c.hands = .number n
  /-- A cell is written only where a storing instruction's validator points, never with Empty. -/
  cell : ∀ x, c.cell = some x → x.2 ≠ .empty ∧ x.1 < s.launch.memLen ∧
    (x.2 = s.hands ∨ ∃ n : Int, -999 ≤ n ∧ n ≤ 999 ∧ x.2 = .number n) ∧
    ∃ m p, i.storeAddress = some (m, p) ∧ s.validate m p = .ok x.1
  /-- A storing instruction that commits writes a cell. -/
  stores : i.storeAddress ≠ none → c.cell ≠ none
  /-- INBOX alone takes an input, and always. -/
  takes : (c.takesInput = true ↔ i = .inbox) ∧ (i = .inbox → s.nextInput = some c.hands)
  /-- OUTBOX alone appends: its hands, which is not Empty. -/
  output : (c.output = none ∧ i ≠ .outbox) ∨ (i = .outbox ∧ c.output = some s.hands ∧ s.hands ≠ .empty)
  /-- pc goes to the next instruction or to a jump's target. -/
  nextPc : c.nextPc = s.pc + 1 ∨ ∃ t, i.param = .programAddress t ∧ 14 ≤ i.opcode ∧ c.nextPc = BitVec.ofNat 14 t

/-- The checks of a load, in either mode. -/
theorem copyFromChecks_ok {m : AddrMode} {p : Value} {s : State} {c : Commit} (h : copyFromChecks m p s = .ok c) :
    ∃ i, s.validate m p = .ok i ∧ s.mem.read i ≠ .empty ∧ c = { hands := s.mem.read i, nextPc := s.pc + 1 } := by
  obtain ⟨i, hi, h⟩ := Checked.bind_ok.mp h
  rw [State.memRead_of_lt (State.validate_lt hi), Checked.ok_bind] at h
  obtain ⟨v, hv, h⟩ := Checked.bind_ok.mp h
  obtain ⟨hne, rfl⟩ := nonEmptyOr_ok_iff.mp hv
  cases h
  exact ⟨i, hi, hne, rfl⟩

/-- How the checks of a load fail. -/
theorem copyFromChecks_error {m : AddrMode} {p : Value} {s : State} {h : Halt} (hc : copyFromChecks m p s = .error h) :
    ∃ e, h = .raise e ∧ (e ∈ addressCodes m ∨ e = .readingEmptyCell) := by
  rcases Checked.bind_error.mp hc with hv | ⟨i, hi, hc⟩
  · obtain ⟨e, he, rfl⟩ := State.validate_error hv
    exact ⟨e, rfl, .inl he⟩
  · rw [State.memRead_of_lt (State.validate_lt hi), Checked.ok_bind] at hc
    rcases Checked.bind_error.mp hc with hv | ⟨v, -, hc⟩
    · exact ⟨_, (nonEmptyOr_error_iff.mp hv).2, .inr rfl⟩
    · cases hc

/-- The checks of a store, in either mode. -/
theorem copyToChecks_ok {m : AddrMode} {p : Value} {s : State} {c : Commit} (h : copyToChecks m p s = .ok c) :
    ∃ i, s.validate m p = .ok i ∧ s.hands ≠ .empty ∧
      c = { hands := .empty, cell := some (i, s.hands), nextPc := s.pc + 1 } := by
  obtain ⟨v, hv, h⟩ := Checked.bind_ok.mp h
  obtain ⟨hne, rfl⟩ := nonEmptyOr_ok_iff.mp hv
  obtain ⟨i, hi, h⟩ := Checked.bind_ok.mp h
  rw [State.memWrite_of_lt (State.validate_lt hi), Checked.ok_bind] at h
  cases h
  exact ⟨i, hi, hne, rfl⟩

/-- How the checks of a store fail. -/
theorem copyToChecks_error {m : AddrMode} {p : Value} {s : State} {h : Halt} (hc : copyToChecks m p s = .error h) :
    ∃ e, h = .raise e ∧ (e ∈ addressCodes m ∨ e = .emptyHands) := by
  rcases Checked.bind_error.mp hc with hv | ⟨v, -, hc⟩
  · exact ⟨_, (nonEmptyOr_error_iff.mp hv).2, .inr rfl⟩
  · rcases Checked.bind_error.mp hc with hv | ⟨i, hi, hc⟩
    · obtain ⟨e, he, rfl⟩ := State.validate_error hv
      exact ⟨e, rfl, .inl he⟩
    · rw [State.memWrite_of_lt (State.validate_lt hi), Checked.ok_bind] at hc
      cases hc

/-- The checks of ADD, in either mode. -/
theorem addChecks_ok {m : AddrMode} {p : Value} {s : State} {c : Commit} (h : addChecks m p s = .ok c) :
    ∃ a b i, s.hands = .number a ∧ s.validate m p = .ok i ∧ s.mem.read i = .number b ∧ -999 ≤ a + b ∧ a + b ≤ 999 ∧
      c = { hands := .number (a + b), nextPc := s.pc + 1 } := by
  obtain ⟨a, ha, h⟩ := Checked.bind_ok.mp h
  obtain ⟨i, hi, h⟩ := Checked.bind_ok.mp h
  rw [State.memRead_of_lt (State.validate_lt hi), Checked.ok_bind] at h
  obtain ⟨b, hb, h⟩ := Checked.bind_ok.mp h
  obtain ⟨r, hr, h⟩ := Checked.bind_ok.mp h
  obtain ⟨h1, h2, rfl⟩ := rangeCheck_ok_iff.mp hr
  cases h
  exact ⟨a, b, i, numberOr_ok_iff.mp ha, hi, numberOr_ok_iff.mp hb, h1, h2, rfl⟩

/-- How the checks of ADD fail. -/
theorem addChecks_error {m : AddrMode} {p : Value} {s : State} {h : Halt} (hc : addChecks m p s = .error h) :
    ∃ e, h = .raise e ∧ (e ∈ addressCodes m ∨
      e ∈ [ErrorKind.badAddendTypeInHands, .badAddendTypeInMemory, .overflow, .underflow]) := by
  rcases Checked.bind_error.mp hc with hv | ⟨a, -, hc⟩
  · exact ⟨_, (numberOr_error_iff.mp hv).2, by simp⟩
  rcases Checked.bind_error.mp hc with hv | ⟨i, hi, hc⟩
  · obtain ⟨e, he, rfl⟩ := State.validate_error hv
    exact ⟨e, rfl, .inl he⟩
  rw [State.memRead_of_lt (State.validate_lt hi), Checked.ok_bind] at hc
  rcases Checked.bind_error.mp hc with hv | ⟨b, -, hc⟩
  · exact ⟨_, (numberOr_error_iff.mp hv).2, by simp⟩
  rcases Checked.bind_error.mp hc with hv | ⟨r, -, hc⟩
  · rcases rangeCheck_error_iff.mp hv with ⟨-, rfl⟩ | ⟨-, rfl⟩ <;> exact ⟨_, rfl, by simp⟩
  · cases hc

/-- The checks of SUB, in either mode. -/
theorem subChecks_ok {m : AddrMode} {p : Value} {s : State} {c : Commit} (h : subChecks m p s = .ok c) :
    ∃ a b i, s.hands = .number a ∧ s.validate m p = .ok i ∧ s.mem.read i = .number b ∧ -999 ≤ a - b ∧ a - b ≤ 999 ∧
      c = { hands := .number (a - b), nextPc := s.pc + 1 } := by
  obtain ⟨a, ha, h⟩ := Checked.bind_ok.mp h
  obtain ⟨i, hi, h⟩ := Checked.bind_ok.mp h
  rw [State.memRead_of_lt (State.validate_lt hi), Checked.ok_bind] at h
  obtain ⟨b, hb, h⟩ := Checked.bind_ok.mp h
  obtain ⟨r, hr, h⟩ := Checked.bind_ok.mp h
  obtain ⟨h1, h2, rfl⟩ := rangeCheck_ok_iff.mp hr
  cases h
  exact ⟨a, b, i, numberOr_ok_iff.mp ha, hi, numberOr_ok_iff.mp hb, h1, h2, rfl⟩

/-- How the checks of SUB fail. -/
theorem subChecks_error {m : AddrMode} {p : Value} {s : State} {h : Halt} (hc : subChecks m p s = .error h) :
    ∃ e, h = .raise e ∧ (e ∈ addressCodes m ∨
      e ∈ [ErrorKind.badSubtrahendTypeInHands, .badSubtrahendTypeInMemory, .overflow, .underflow]) := by
  rcases Checked.bind_error.mp hc with hv | ⟨a, -, hc⟩
  · exact ⟨_, (numberOr_error_iff.mp hv).2, by simp⟩
  rcases Checked.bind_error.mp hc with hv | ⟨i, hi, hc⟩
  · obtain ⟨e, he, rfl⟩ := State.validate_error hv
    exact ⟨e, rfl, .inl he⟩
  rw [State.memRead_of_lt (State.validate_lt hi), Checked.ok_bind] at hc
  rcases Checked.bind_error.mp hc with hv | ⟨b, -, hc⟩
  · exact ⟨_, (numberOr_error_iff.mp hv).2, by simp⟩
  rcases Checked.bind_error.mp hc with hv | ⟨r, -, hc⟩
  · rcases rangeCheck_error_iff.mp hv with ⟨-, rfl⟩ | ⟨-, rfl⟩ <;> exact ⟨_, rfl, by simp⟩
  · cases hc

/-- The checks of a bump, in either mode and direction. -/
theorem bumpChecks_ok {d : Int} {m : AddrMode} {p : Value} {s : State} {c : Commit} (h : bumpChecks d m p s = .ok c) :
    ∃ b i, s.validate m p = .ok i ∧ s.mem.read i = .number b ∧ -999 ≤ b + d ∧ b + d ≤ 999 ∧
      c = { hands := .number (b + d), cell := some (i, .number (b + d)), nextPc := s.pc + 1 } := by
  obtain ⟨i, hi, h⟩ := Checked.bind_ok.mp h
  rw [State.memRead_of_lt (State.validate_lt hi), Checked.ok_bind] at h
  obtain ⟨b, hb, h⟩ := Checked.bind_ok.mp h
  obtain ⟨r, hr, h⟩ := Checked.bind_ok.mp h
  rw [State.memWrite_of_lt (State.validate_lt hi), Checked.ok_bind] at h
  obtain ⟨h1, h2, rfl⟩ := rangeCheck_ok_iff.mp hr
  cases h
  exact ⟨b, i, hi, numberOr_ok_iff.mp hb, h1, h2, rfl⟩

/-- How the checks of a bump fail; the range error is of a Number in the cell. -/
theorem bumpChecks_error {d : Int} {m : AddrMode} {p : Value} {s : State} {h : Halt}
    (hc : bumpChecks d m p s = .error h) :
    ∃ e, h = .raise e ∧ (e ∈ addressCodes m ∨ e = .badTypeForBumpInMemory ∨
      ∃ b i, s.mem.read i = .number b ∧ ((999 < b + d ∧ e = .overflow) ∨ (b + d < -999 ∧ e = .underflow))) := by
  rcases Checked.bind_error.mp hc with hv | ⟨i, hi, hc⟩
  · obtain ⟨e, he, rfl⟩ := State.validate_error hv
    exact ⟨e, rfl, .inl he⟩
  rw [State.memRead_of_lt (State.validate_lt hi), Checked.ok_bind] at hc
  rcases Checked.bind_error.mp hc with hv | ⟨b, hb, hc⟩
  · exact ⟨_, (numberOr_error_iff.mp hv).2, by simp⟩
  rcases Checked.bind_error.mp hc with hv | ⟨r, -, hc⟩
  · rcases rangeCheck_error_iff.mp hv with ⟨h1, rfl⟩ | ⟨h1, rfl⟩
    · exact ⟨_, rfl, .inr (.inr ⟨b, i, numberOr_ok_iff.mp hb, .inl ⟨h1, rfl⟩⟩)⟩
    · exact ⟨_, rfl, .inr (.inr ⟨b, i, numberOr_ok_iff.mp hb, .inr ⟨h1, rfl⟩⟩)⟩
  · rw [State.memWrite_of_lt (State.validate_lt hi), Checked.ok_bind] at hc
    cases hc

/-! ## Every instruction -/

/-- The checks of an instruction: exec concludes them. -/
def checksOf (s : State) : Instr → Checked Commit
  | .inbox => inboxChecks s
  | .outbox => outboxChecks s
  | .copyFrom p => copyFromChecks .direct p s
  | .copyFromIndirect p => copyFromChecks .indirect p s
  | .copyTo p => copyToChecks .direct p s
  | .copyToIndirect p => copyToChecks .indirect p s
  | .add p => addChecks .direct p s
  | .addIndirect p => addChecks .indirect p s
  | .sub p => subChecks .direct p s
  | .subIndirect p => subChecks .indirect p s
  | .bumpUp p => bumpChecks 1 .direct p s
  | .bumpUpIndirect p => bumpChecks 1 .indirect p s
  | .bumpDown p => bumpChecks (-1) .direct p s
  | .bumpDownIndirect p => bumpChecks (-1) .indirect p s
  | .jump t => .ok (s.goTo (BitVec.ofNat 14 t))
  | .jumpIfZero t => jumpIfChecks isZero t s
  | .jumpIfNegative t => jumpIfChecks isNegative t s

/-- exec answers the conclusion of the instruction's checks. -/
theorem exec_eq (i : Instr) (s : State) : exec i s = .next (s.conclude (checksOf s i)) := by cases i <;> rfl

/-- The Number in a bank of legal Values is in range. -/
theorem ValuesLegal.cell {s : State} (h : ValuesLegal s) (i : Nat) : (s.mem.read i).legal = true := by
  rcases Memory.read_mem s.mem i with h' | h'
  · rw [h']
    rfl
  · exact h.mem _ h'

theorem copyFrom_shape {i : Instr} {m : AddrMode} {p : Value} {s : State} {c : Commit}
    (hi : i = .copyFrom p ∨ i = .copyFromIndirect p) (h : copyFromChecks m p s = .ok c) : CommitShape i s c := by
  obtain ⟨n, hn, hne, rfl⟩ := copyFromChecks_ok h
  rcases hi with rfl | rfl <;>
    exact ⟨by simp [Instr.writesHands], .inr (.inr (.inr (.inl ⟨n, rfl⟩))), by simp, by simp [Instr.storeAddress],
      by simp, by simp, .inl rfl⟩

theorem copyTo_shape {i : Instr} {m : AddrMode} {p : Value} {s : State} {c : Commit}
    (hi : i.storeAddress = some (m, p)) (hw : i.writesHands = true) (h1 : i ≠ .inbox) (h2 : i ≠ .outbox)
    (h : copyToChecks m p s = .ok c) : CommitShape i s c := by
  obtain ⟨n, hn, hne, rfl⟩ := copyToChecks_ok h
  refine ⟨by simp [hw], .inl rfl, ?_, by simp, by simp [h1], by simp [h2], .inl rfl⟩
  rintro x hx
  cases hx
  exact ⟨hne, State.validate_lt hn, .inl rfl, m, p, hi, hn⟩

theorem bump_shape {i : Instr} {d : Int} {m : AddrMode} {p : Value} {s : State} {c : Commit}
    (hi : i.storeAddress = some (m, p)) (hw : i.writesHands = true) (h1 : i ≠ .inbox) (h2 : i ≠ .outbox)
    (h : bumpChecks d m p s = .ok c) : CommitShape i s c := by
  obtain ⟨b, n, hn, -, hlo, hhi, rfl⟩ := bumpChecks_ok h
  refine ⟨by simp [hw], .inr (.inr (.inr (.inr ⟨_, hlo, hhi, rfl⟩))), ?_, by simp, by simp [h1], by simp [h2], .inl rfl⟩
  rintro x hx
  cases hx
  exact ⟨by simp, State.validate_lt hn, .inr ⟨_, hlo, hhi, rfl⟩, m, p, hi, hn⟩

theorem number_shape {i : Instr} {r : Int} {s : State} (hw : i.writesHands = true) (h1 : i ≠ .inbox)
    (h2 : i ≠ .outbox) (hs : i.storeAddress = none) (hlo : -999 ≤ r) (hhi : r ≤ 999) :
    CommitShape i s { hands := .number r, nextPc := s.pc + 1 } :=
  ⟨by simp [hw], .inr (.inr (.inr (.inr ⟨_, hlo, hhi, rfl⟩))), by simp, by simp [hs], by simp [h1], by simp [h2], .inl rfl⟩

theorem goTo_shape {i : Instr} {pc : ProgIndex} {s : State} (h1 : i ≠ .inbox) (h2 : i ≠ .outbox)
    (hs : i.storeAddress = none)
    (hpc : pc = s.pc + 1 ∨ ∃ t, i.param = .programAddress t ∧ 14 ≤ i.opcode ∧ pc = BitVec.ofNat 14 t) :
    CommitShape i s (s.goTo pc) :=
  ⟨fun _ => rfl, .inr (.inl rfl), by simp [State.goTo], by simp [hs], by simp [State.goTo, h1], by simp [State.goTo, h2], hpc⟩

theorem jumpIf_shape {i : Instr} {cond : Int → Bool} {t : Nat} {s : State} {c : Commit} (h1 : i ≠ .inbox)
    (h2 : i ≠ .outbox) (hs : i.storeAddress = none) (ht : i.param = .programAddress t) (ho : 14 ≤ i.opcode)
    (h : jumpIfChecks cond t s = .ok c) : CommitShape i s c := by
  obtain ⟨n, -, h⟩ := Checked.bind_ok.mp h
  cases h
  refine goTo_shape h1 h2 hs ?_
  split
  · exact .inr ⟨t, ht, ho, rfl⟩
  · exact .inl rfl

/-- Every commit has the shape. -/
theorem checksOf_shape {s : State} {i : Instr} {c : Commit} (h : checksOf s i = .ok c) : CommitShape i s c := by
  cases i with
  | inbox =>
    simp only [checksOf, inboxChecks] at h
    split at h
    · rename_i v hv
      cases h
      exact ⟨by simp [Instr.writesHands], .inr (.inr (.inl hv)), by simp [State.takeInput], by simp [Instr.storeAddress],
        ⟨by simp [State.takeInput], fun _ => hv⟩, by simp [State.takeInput], .inl rfl⟩
    · cases h
  | outbox =>
    obtain ⟨v, hv, h⟩ := Checked.bind_ok.mp h
    obtain ⟨hne, rfl⟩ := nonEmptyOr_ok_iff.mp hv
    cases h
    exact ⟨fun _ => rfl, .inr (.inl rfl), by simp, by simp [Instr.storeAddress], by simp, .inr ⟨rfl, rfl, hne⟩, .inl rfl⟩
  | copyFrom p => exact copyFrom_shape (.inl rfl) h
  | copyFromIndirect p => exact copyFrom_shape (.inr rfl) h
  | copyTo p => exact copyTo_shape rfl rfl (by simp) (by simp) h
  | copyToIndirect p => exact copyTo_shape rfl rfl (by simp) (by simp) h
  | add p =>
    obtain ⟨a, b, n, -, -, -, hlo, hhi, rfl⟩ := addChecks_ok h
    exact number_shape rfl (by simp) (by simp) rfl hlo hhi
  | addIndirect p =>
    obtain ⟨a, b, n, -, -, -, hlo, hhi, rfl⟩ := addChecks_ok h
    exact number_shape rfl (by simp) (by simp) rfl hlo hhi
  | sub p =>
    obtain ⟨a, b, n, -, -, -, hlo, hhi, rfl⟩ := subChecks_ok h
    exact number_shape rfl (by simp) (by simp) rfl hlo hhi
  | subIndirect p =>
    obtain ⟨a, b, n, -, -, -, hlo, hhi, rfl⟩ := subChecks_ok h
    exact number_shape rfl (by simp) (by simp) rfl hlo hhi
  | bumpUp p => exact bump_shape rfl rfl (by simp) (by simp) h
  | bumpUpIndirect p => exact bump_shape rfl rfl (by simp) (by simp) h
  | bumpDown p => exact bump_shape rfl rfl (by simp) (by simp) h
  | bumpDownIndirect p => exact bump_shape rfl rfl (by simp) (by simp) h
  | jump t =>
    cases h
    exact goTo_shape (by simp) (by simp) rfl (.inr ⟨t, rfl, by simp [Instr.opcode], rfl⟩)
  | jumpIfZero t => exact jumpIf_shape (by simp) (by simp) rfl rfl (by simp [Instr.opcode]) h
  | jumpIfNegative t => exact jumpIf_shape (by simp) (by simp) rfl rfl (by simp [Instr.opcode]) h

/-- An instruction that does not commit raises an error, or is an INBOX that finds no input. -/
theorem checksOf_error {s : State} {i : Instr} {h : Halt} (hc : checksOf s i = .error h) :
    (∃ e, h = .raise e) ∨
      (i = .inbox ∧ s.nextInput = none ∧ h = if s.launch.interactive then .suspend else .normally) := by
  have jumpIf : ∀ (cond : Int → Bool) (t : Nat), jumpIfChecks cond t s = .error h → ∃ e, h = .raise e := by
    intro cond t hc
    rcases Checked.bind_error.mp hc with hv | ⟨n, -, hc⟩
    · exact ⟨_, (numberOr_error_iff.mp hv).2⟩
    · cases hc
  cases i with
  | inbox =>
    simp only [checksOf, inboxChecks] at hc
    split at hc
    · cases hc
    · rename_i hn
      cases hc
      exact .inr ⟨rfl, hn, rfl⟩
  | outbox =>
    rcases Checked.bind_error.mp hc with hv | ⟨v, -, hc⟩
    · exact .inl ⟨_, (nonEmptyOr_error_iff.mp hv).2⟩
    · cases hc
  | copyFrom p => exact .inl ((copyFromChecks_error hc).imp fun _ h => h.1)
  | copyFromIndirect p => exact .inl ((copyFromChecks_error hc).imp fun _ h => h.1)
  | copyTo p => exact .inl ((copyToChecks_error hc).imp fun _ h => h.1)
  | copyToIndirect p => exact .inl ((copyToChecks_error hc).imp fun _ h => h.1)
  | add p => exact .inl ((addChecks_error hc).imp fun _ h => h.1)
  | addIndirect p => exact .inl ((addChecks_error hc).imp fun _ h => h.1)
  | sub p => exact .inl ((subChecks_error hc).imp fun _ h => h.1)
  | subIndirect p => exact .inl ((subChecks_error hc).imp fun _ h => h.1)
  | bumpUp p => exact .inl ((bumpChecks_error hc).imp fun _ h => h.1)
  | bumpUpIndirect p => exact .inl ((bumpChecks_error hc).imp fun _ h => h.1)
  | bumpDown p => exact .inl ((bumpChecks_error hc).imp fun _ h => h.1)
  | bumpDownIndirect p => exact .inl ((bumpChecks_error hc).imp fun _ h => h.1)
  | jump t => cases hc
  | jumpIfZero t => exact .inl (jumpIf isZero t hc)
  | jumpIfNegative t => exact .inl (jumpIf isNegative t hc)

/-- What exec can do, for any instruction in any state: a commit of the known shape, an error, or an INBOX that
finds no input. -/
theorem exec_cases (i : Instr) (s : State) :
    (∃ c, checksOf s i = .ok c ∧ CommitShape i s c ∧ exec i s = .next (s.commit c)) ∨
      (∃ e, checksOf s i = .error (.raise e) ∧ exec i s = .next (s.raise e)) ∨
      (i = .inbox ∧ s.nextInput = none ∧
        exec i s = .next (if s.launch.interactive then s.suspend else s.haltNormally)) := by
  rw [exec_eq]
  cases hc : checksOf s i with
  | ok c => exact .inl ⟨c, rfl, checksOf_shape hc, rfl⟩
  | error h =>
    rcases checksOf_error hc with ⟨e, rfl⟩ | ⟨rfl, hn, rfl⟩
    · exact .inr (.inl ⟨e, rfl, rfl⟩)
    · refine .inr (.inr ⟨rfl, hn, ?_⟩)
      by_cases hi : s.launch.interactive = true <;> simp [hi]

end Sys2Proof.Machine
end

