-- ==== Sys2Proof/Laws/Engine.lean ====
section
/-! SUPPORT. What one step can do, said once: RESET, or one of the engine's moves. -/

namespace Sys2Proof

/-- The Value a word spells is legal (30_encoding.md R84). -/
theorem decodeValue_legal {w : ValueWord} {v : Value} (h : decodeValue w = some v) : v.legal = true := by
  have hlt := (valuePay w).isLt
  simp only [decodeValue, ofTagPay] at h
  split at h
  · split at h
    · cases h
      rfl
    · cases h
  · split at h
    · rename_i hr
      cases h
      simpa [Value.legal] using hr
    · cases h
  · split at h
    · rename_i hr
      cases h
      simpa [Value.legal] using hr
    · cases h
  · cases h
    simpa [Value.legal] using hlt
  · cases h
    simpa [Value.legal] using hlt
  · cases h

/-- What the opcode map yields has the opcode and the parameter it was given (30_encoding.md R85). -/
theorem ofOpcode_ok {op : Nat} {p : Value} {i : Instr} (h : ofOpcode op p = .ok i) : i.opcode = op ∧ i.param = p := by
  have plain : ∀ j : Instr, withoutParam j p = .ok i → j = i ∧ p = .empty := by
    intro j hj
    unfold withoutParam at hj
    split at hj
    · cases hj
      exact ⟨rfl, by assumption⟩
    · cases hj
  have target : ∀ f : Nat → Instr, withTarget f p = .ok i → ∃ t, p = .programAddress t ∧ f t = i := by
    intro f hf
    cases p <;> simp [withTarget] at hf ⊢
    exact hf
  unfold ofOpcode at h
  split at h
  case h_1 =>
    obtain ⟨rfl, rfl⟩ := plain _ h
    exact ⟨rfl, rfl⟩
  case h_2 =>
    obtain ⟨rfl, rfl⟩ := plain _ h
    exact ⟨rfl, rfl⟩
  case h_15 =>
    obtain ⟨t, rfl, rfl⟩ := target _ h
    exact ⟨rfl, rfl⟩
  case h_16 =>
    obtain ⟨t, rfl, rfl⟩ := target _ h
    exact ⟨rfl, rfl⟩
  case h_17 =>
    obtain ⟨t, rfl, rfl⟩ := target _ h
    exact ⟨rfl, rfl⟩
  case h_18 => cases h
  all_goals
    cases h
    exact ⟨rfl, rfl⟩

/-- A decoded word has RSV = 0, and its OP and PARAM are the instruction's (30_encoding.md R86). -/
theorem decode_ok {w : InsnWord} {i : Instr} (h : decode w = .ok i) :
    insnRsv w = 0 ∧ i.opcode = (insnOp w).toNat ∧ decodeValue (insnParam w) = some i.param := by
  unfold decode at h
  split at h
  · cases h
  · rename_i hr
    split at h
    · cases h
    · split at h
      · cases h
      · rename_i p hp
        obtain ⟨ho, rfl⟩ := ofOpcode_ok h
        exact ⟨by simpa using hr, ho, hp⟩

/-- An instruction is well formed exactly when its parameter is legal. -/
theorem Instr.wellFormed_eq (i : Instr) : i.wellFormed = i.param.legal := by cases i <;> rfl

/-- A decoded instruction is well formed. -/
theorem decode_wellFormed {w : InsnWord} {i : Instr} (h : decode w = .ok i) : i.wellFormed = true := by
  rw [Instr.wellFormed_eq]
  exact decodeValue_legal (decode_ok h).2.2

namespace Machine

/-- The moves of the engine from s, with CANCEL present or not. -/
inductive EngineMove (cancel : Bool) (s : State) : State → Prop where
  /-- A terminal state, or SUSPENDED with nothing to wake it. -/
  | idle (h : s.runState.terminal = true ∨ (s.runState = .suspended ∧ s.nextInput = none ∧ cancel = false)) :
      EngineMove cancel s s
  | budget (hr : s.runState = .running) (h : 1000 ≤ s.icount.toNat) : EngineMove cancel s s.haltOnBudget
  | pcOutOfRange (hr : s.runState = .running) (hb : s.icount.toNat < 1000) (h : s.fetch = none) :
      EngineMove cancel s (s.internalFault .pcOutOfRange)
  | illegal {w : InsnWord} {e : Illegal} (hr : s.runState = .running) (hb : s.icount.toNat < 1000)
      (hw : s.fetch = some w) (h : decode w = .error e) : EngineMove cancel s (s.internalFault .illegalInstruction)
  | commit {w : InsnWord} {i : Instr} {c : Commit} (hr : s.runState = .running) (hb : s.icount.toNat < 1000)
      (hw : s.fetch = some w) (hi : decode w = .ok i) (hc : checksOf s i = .ok c) (h : CommitShape i s c) :
      EngineMove cancel s (s.commit c)
  | raised {w : InsnWord} {i : Instr} {e : ErrorKind} (hr : s.runState = .running) (hb : s.icount.toNat < 1000)
      (hw : s.fetch = some w) (hi : decode w = .ok i) (h : checksOf s i = .error (.raise e)) :
      EngineMove cancel s (s.raise e)
  | halted {w : InsnWord} (hr : s.runState = .running) (hb : s.icount.toNat < 1000) (hw : s.fetch = some w)
      (hi : decode w = .ok .inbox) (hn : s.nextInput = none) (hm : s.launch.interactive = false) :
      EngineMove cancel s s.haltNormally
  | suspended {w : InsnWord} (hr : s.runState = .running) (hb : s.icount.toNat < 1000) (hw : s.fetch = some w)
      (hi : decode w = .ok .inbox) (hn : s.nextInput = none) (hm : s.launch.interactive = true) :
      EngineMove cancel s s.suspend
  | woken {v : Value} (hr : s.runState = .suspended) (hn : s.nextInput = some v) (hc : cancel = false) :
      EngineMove cancel s (s.wake v)
  | cancelled (hr : s.runState = .suspended) (hn : s.nextInput = none) (hc : cancel = true) :
      EngineMove cancel s s.cancelRun
  | raceWoken {v : Value} (hr : s.runState = .suspended) (hn : s.nextInput = some v) (hc : cancel = true) :
      EngineMove cancel s ({ s with freeReads := s.freeReads + 1 }.wake v)
  | raceCancelled {v : Value} (hr : s.runState = .suspended) (hn : s.nextInput = some v) (hc : cancel = true) :
      EngineMove cancel s { s with freeReads := s.freeReads + 1 }.cancelRun

/-- The engine always answers a next state, by one of its moves. -/
theorem engineStep_move (cancel : Bool) (s : State) : ∃ t, engineStep cancel s = .next t ∧ EngineMove cancel s t := by
  unfold engineStep
  split
  · rename_i hr
    unfold runningStep
    split
    · rename_i hb
      exact ⟨_, rfl, .budget hr hb⟩
    · rename_i hb
      have hb : s.icount.toNat < 1000 := Nat.lt_of_not_le hb
      split
      · rename_i hf
        exact ⟨_, rfl, .pcOutOfRange hr hb hf⟩
      · rename_i w hf
        unfold dispatchWord
        split
        · rename_i e he
          exact ⟨_, rfl, .illegal hr hb hf he⟩
        · rename_i i hi
          rcases exec_cases i s with ⟨c, hc, hs, hx⟩ | ⟨e, hc, hx⟩ | ⟨rfl, hn, hx⟩
          · exact ⟨_, hx, .commit hr hb hf hi hc hs⟩
          · exact ⟨_, hx, .raised hr hb hf hi hc⟩
          · refine ⟨_, hx, ?_⟩
            by_cases hm : s.launch.interactive = true
            · rw [if_pos hm]
              exact .suspended hr hb hf hi hn hm
            · rw [if_neg hm]
              exact .halted hr hb hf hi hn (by simpa using hm)
  · rename_i hr
    unfold suspendedStep
    split
    · rename_i v hn
      refine ⟨_, rfl, ?_⟩
      unfold State.race
      simp only
      split
      · exact .raceCancelled hr hn rfl
      · exact .raceWoken hr hn rfl
    · rename_i v hn
      exact ⟨_, rfl, .woken hr hn rfl⟩
    · rename_i hn
      exact ⟨_, rfl, .cancelled hr hn rfl⟩
    · rename_i hn
      exact ⟨_, rfl, .idle (.inr ⟨hr, hn, rfl⟩)⟩
  all_goals
    rename_i hr
    exact ⟨s, rfl, .idle (.inl (by rw [hr]; rfl))⟩

/-- A step answers RESET's state, or one of the engine's moves once the host's pushes have arrived. -/
theorem step_cases (s : State) :
    ∃ t, step s = .next t ∧ ((s.hostTick.reset = true ∧ t = s.arrive.restart) ∨
      (s.hostTick.reset = false ∧ EngineMove s.hostTick.cancel s.arrive t)) := by
  show ∃ t, tickStep s = .next t ∧ _
  unfold tickStep
  split
  · rename_i h
    exact ⟨_, rfl, .inl ⟨h, rfl⟩⟩
  · rename_i h
    obtain ⟨t, ht, hm⟩ := engineStep_move s.hostTick.cancel s.arrive
    exact ⟨t, ht, .inr ⟨by simpa using h, hm⟩⟩

/-- A step without RESET is the engine's step after the pushes. -/
theorem step_of_noReset {s : State} (h : s.hostTick.reset = false) :
    step s = engineStep s.hostTick.cancel s.arrive := by
  show tickStep s = _
  rw [tickStep, h]
  rfl

/-- A step with RESET restarts the run. -/
theorem step_of_reset {s : State} (h : s.hostTick.reset = true) : step s = .next s.arrive.restart := by
  show tickStep s = _
  rw [tickStep, h]
  rfl

/-- The engine in a terminal state does nothing. -/
theorem engineStep_terminal {s : State} (c : Bool) (h : s.runState.terminal = true) : engineStep c s = .next s := by
  unfold engineStep
  split <;> simp_all [RunState.terminal]

/-- The engine's step from RUNNING. -/
theorem engineStep_running {s : State} (c : Bool) (h : s.runState = .running) : engineStep c s = runningStep s := by
  unfold engineStep
  rw [h]

/-- The engine's step from SUSPENDED. -/
theorem engineStep_suspended {s : State} (c : Bool) (h : s.runState = .suspended) :
    engineStep c s = suspendedStep c s := by
  unfold engineStep
  rw [h]

/-- A step from RUNNING whose word decodes runs the decoded instruction. -/
theorem runningStep_of_decode {s : State} {w : InsnWord} {i : Instr} (hb : s.icount.toNat < 1000)
    (hw : s.fetch = some w) (hi : decode w = .ok i) : runningStep s = exec i s := by
  unfold runningStep
  rw [if_neg (show ¬ Config.maxInstr ≤ s.icount.toNat from Nat.not_le_of_lt hb), hw]
  simp only [dispatchWord, hi]

/-- The host's tick is the head of its inputs, or idle. -/
theorem State.hostTick_mem (s : State) : s.hostTick = HostTick.idle ∨ s.hostTick ∈ s.hostInputs := by
  unfold State.hostTick
  cases s.hostInputs <;> simp

end Machine
end Sys2Proof
end

