-- ==== Sys2Proof/Laws/PerInstr.lean ====
section
/-! SUPPORT. Per-instruction laws. OpcodeField: the fields of an instruction's word are its opcode number, a zero
RSV, and its parameter's Value word (30_encoding.md R82, R85). -/

namespace Sys2Proof.Laws.OpcodeField

/-- The three fields of the word of i. -/
def Statement (i : Instr) : Prop :=
  insnOp (encode i) = BitVec.ofNat 5 i.opcode ∧ insnRsv (encode i) = 0#11 ∧ insnParam (encode i) = encodeValue i.param

/-- The fields of any encoded word. -/
theorem fields (i : Instr) : Statement i := ⟨insnOp_encode i, insnRsv_encode i, insnParam_encode i⟩

theorem inbox : Statement .inbox := fields _
theorem outbox : Statement .outbox := fields _
theorem copyFrom (p : Value) : Statement (.copyFrom p) := fields _
theorem copyFromIndirect (p : Value) : Statement (.copyFromIndirect p) := fields _
theorem copyTo (p : Value) : Statement (.copyTo p) := fields _
theorem copyToIndirect (p : Value) : Statement (.copyToIndirect p) := fields _
theorem add (p : Value) : Statement (.add p) := fields _
theorem addIndirect (p : Value) : Statement (.addIndirect p) := fields _
theorem sub (p : Value) : Statement (.sub p) := fields _
theorem subIndirect (p : Value) : Statement (.subIndirect p) := fields _
theorem bumpUp (p : Value) : Statement (.bumpUp p) := fields _
theorem bumpUpIndirect (p : Value) : Statement (.bumpUpIndirect p) := fields _
theorem bumpDown (p : Value) : Statement (.bumpDown p) := fields _
theorem bumpDownIndirect (p : Value) : Statement (.bumpDownIndirect p) := fields _
theorem jump (t : Nat) : Statement (.jump t) := fields _
theorem jumpIfZero (t : Nat) : Statement (.jumpIfZero t) := fields _
theorem jumpIfNegative (t : Nat) : Statement (.jumpIfNegative t) := fields _

end Sys2Proof.Laws.OpcodeField
end

