-- ==== Sys2Proof/Tests/Slice0.lean ====
section
/-! SUPPORT. The model's own tests. Expected values are those of 95_test_vectors.md, whose vector is named in each
docstring, or words written out from 30_encoding.md R82 to R85. Then the witnesses: for every statement with
hypotheses, a concrete state and operands that meet them, clause by clause. -/

open Sys2Proof Sys2Proof.Machine

namespace Sys2Proof.Tests

/-! ## Helpers -/

/-- The bank of 95_test_vectors.md section 2.3: [Number(2), MA(3), 'Q', Empty]. -/
def room : Memory := [(0, .number 2), (1, .memoryAddress 3), (2, .letter 'Q')]

/-- A run at its first instruction, the word w: MEM_LEN = 4, bank m, hands h. -/
def start (w : InsnWord) (m : Memory) (h : Value) : State :=
  { State.reset with
    mem := m, hands := h, launch := { prog := [w], memLen := 4, room := m, interactive := false } }

/-- The state one step later. -/
def after (s : State) : State :=
  match step s with
  | .next t => t
  | .fault _ => s
  | .refused _ => s

/-- The state one instruction later. -/
def ran (i : Instr) (s : State) : State :=
  match exec i s with
  | .next t => t
  | .fault _ => s
  | .refused _ => s

/-- Every step answers a next state. -/
theorem step_after (s : State) : step s = .next (after s) := by
  obtain ⟨t, ht, -⟩ := step_cases s
  rw [after, ht]

/-- Every instruction answers a next state. -/
theorem exec_ran (i : Instr) (s : State) : exec i s = .next (ran i s) := by
  rw [ran, exec_eq]

/-- A tick of the host. -/
def tick (pushes : List Value) (cancel reset : Bool) : HostTick := { pushes := pushes, cancel := cancel, reset := reset }

/-- An interactive run SUSPENDED at an INBOX, with the host's next tick given (95_test_vectors.md section 2.4). -/
def waiting (h : HostTick) : State :=
  { State.reset with
    runState := .suspended, hostInputs := [h]
    launch := { prog := [0x00000000#32, 0x08000000#32, 0x70008000#32], memLen := 0, room := [], interactive := true } }

/-! ## Well-formedness: one ill-formed term for each check -/

theorem test_wellFormed_number_high : (Instr.add (.number 1000)).wellFormed = false := by decide
theorem test_wellFormed_number_low : (Instr.subIndirect (.number (-1000))).wellFormed = false := by decide
theorem test_wellFormed_character_low : (Instr.copyFrom (.character 0x40)).wellFormed = false := by decide
theorem test_wellFormed_character_high : (Instr.copyTo (.character 0x5B)).wellFormed = false := by decide
theorem test_wellFormed_memoryAddress : (Instr.bumpUp (.memoryAddress 8192)).wellFormed = false := by decide
theorem test_wellFormed_programAddress : (Instr.bumpDown (.programAddress 8192)).wellFormed = false := by decide
theorem test_wellFormed_jump : (Instr.jump 8192).wellFormed = false := by decide
theorem test_wellFormed_jumpIfZero : (Instr.jumpIfZero 8192).wellFormed = false := by decide
theorem test_wellFormed_jumpIfNegative : (Instr.jumpIfNegative 8192).wellFormed = false := by decide

/-! ## Value words (V-W1 to V-W16) -/

theorem test_decodeValue_legal :
    [0x0000#16, 0x2000#16, 0x2007#16, 0x23E7#16, 0x3FFF#16, 0x3C19#16, 0x4041#16, 0x405A#16, 0x7FFF#16, 0x8000#16].map
      decodeValue =
    [some .empty, some (.number 0), some (.number 7), some (.number 999), some (.number (-1)), some (.number (-999)),
      some (.letter 'A'), some (.letter 'Z'), some (.memoryAddress 8191), some (.programAddress 0)] := by decide

theorem test_encodeValue :
    [Value.empty, .number 0, .number 7, .number 999, .number (-1), .number (-999), .letter 'A', .letter 'Z',
      .memoryAddress 8191, .programAddress 0].map encodeValue =
    [0x0000#16, 0x2000#16, 0x2007#16, 0x23E7#16, 0x3FFF#16, 0x3C19#16, 0x4041#16, 0x405A#16, 0x7FFF#16, 0x8000#16] := by
  decide

theorem test_decodeValue_illFormed :
    [0x0001#16, 0x23E8#16, 0x3C18#16, 0x3000#16, 0x4040#16, 0x405B#16, 0xA000#16, 0xC000#16, 0xE000#16].map decodeValue =
    [none, none, none, none, none, none, none, none, none] := by decide

/-! ## Instruction words: OP(5), RSV(11), PARAM as TAG(3) and PAY(13) -/

/-- V-E1. -/
theorem test_decode_inbox : decode (0b00000#5 ++ 0#11 ++ (0b000#3 ++ 0#13)) = .ok .inbox := by decide
/-- V-E2. -/
theorem test_decode_outbox : decode (0b00001#5 ++ 0#11 ++ (0b000#3 ++ 0#13)) = .ok .outbox := by decide
/-- V-E14. -/
theorem test_decode_copyFrom : decode 0x10006000#32 = .ok (.copyFrom (.memoryAddress 0)) := by decide
/-- V-E18. -/
theorem test_decode_copyFromIndirect : decode 0x18004041#32 = .ok (.copyFromIndirect (.letter 'A')) := by decide
/-- P2 of section 4. -/
theorem test_decode_copyTo : decode 0x20006000#32 = .ok (.copyTo (.memoryAddress 0)) := by decide
theorem test_decode_copyToIndirect :
    decode (0b00101#5 ++ 0#11 ++ (0b011#3 ++ 0b0000000000101#13)) = .ok (.copyToIndirect (.memoryAddress 5)) := by decide
/-- P2 of section 4. -/
theorem test_decode_add : decode 0x30006000#32 = .ok (.add (.memoryAddress 0)) := by decide
theorem test_decode_addIndirect :
    decode (0b00111#5 ++ 0#11 ++ (0b001#3 ++ 0b1111111111110#13)) = .ok (.addIndirect (.number (-2))) := by decide
theorem test_decode_sub :
    decode (0b01000#5 ++ 0#11 ++ (0b011#3 ++ 0b1000000000000#13)) = .ok (.sub (.memoryAddress 4096)) := by decide
theorem test_decode_subIndirect :
    decode (0b01001#5 ++ 0#11 ++ (0b100#3 ++ 0b0000000000001#13)) = .ok (.subIndirect (.programAddress 1)) := by decide
/-- P4 of section 4. -/
theorem test_decode_bumpUp : decode 0x50006000#32 = .ok (.bumpUp (.memoryAddress 0)) := by decide
theorem test_decode_bumpUpIndirect :
    decode (0b01011#5 ++ 0#11 ++ (0b001#3 ++ 0b0000000000111#13)) = .ok (.bumpUpIndirect (.number 7)) := by decide
/-- P3 of section 4. -/
theorem test_decode_bumpDown : decode 0x60006000#32 = .ok (.bumpDown (.memoryAddress 0)) := by decide
theorem test_decode_bumpDownIndirect :
    decode (0b01101#5 ++ 0#11 ++ (0b010#3 ++ 0b0000001011010#13)) = .ok (.bumpDownIndirect (.letter 'Z')) := by decide
/-- V-E19. -/
theorem test_decode_jump : decode 0x70008000#32 = .ok (.jump 0) := by decide
/-- V-E20. -/
theorem test_decode_jumpIfZero : decode 0x78008003#32 = .ok (.jumpIfZero 3) := by decide
/-- V-E21. -/
theorem test_decode_jumpIfNegative : decode 0x80009FFF#32 = .ok (.jumpIfNegative 8191) := by decide

/-- V-E3 to V-E13, each by its clause of R87. -/
theorem test_decode_illegal :
    [0x00002007#32, 0x08008000#32, 0x88000000#32, 0xF8000000#32, 0x10016000#32, 0x70002000#32, 0x1000A000#32,
      0x10002400#32, 0x10000001#32, 0x10004020#32, 0x7000FFFF#32].map decode =
    [.error .unexpectedParam, .error .unexpectedParam, .error .reservedOpcode, .error .reservedOpcode,
      .error .reservedBits, .error .targetNotProgramAddress, .error .illFormedParam, .error .illFormedParam,
      .error .illFormedParam, .error .illFormedParam, .error .illFormedParam] := by decide

/-- The host's numbering of a row's bits. -/
theorem test_decodeTableWord : decodeTableWord 32 0x78008003 = some (.jumpIfZero 3) ∧
    decodeTableWord 32 0x88000000 = none ∧ decodeTableWord 16 0 = some .inbox := by decide

/-! ## One step of each instruction -/

/-- V-N1. -/
theorem test_inbox_takes :
    let t := after { start 0x00000000#32 [] .empty with inq := [.number 7] }
    t.hands = .number 7 ∧ t.inCursor = 1 ∧ t.pc = 1 ∧ t.icount = 1 ∧ t.runState = .running := by decide
/-- V-N2. -/
theorem test_inbox_exhausted :
    let t := after { start 0x00000000#32 [] .empty with inq := [.number 7], inCursor := 1, outq := [.number 3] }
    t.runState = .haltedNormally ∧ t.pc = 0 ∧ t.icount = 0 ∧ t.outq = [.number 3] := by decide
/-- V-O1. -/
theorem test_outbox :
    let t := after (start 0x08000000#32 [] (.letter 'Q'))
    t.outq = [.letter 'Q'] ∧ t.hands = .letter 'Q' ∧ t.pc = 1 := by decide
/-- V-O2. -/
theorem test_outbox_emptyHands :
    let t := after (start 0x08000000#32 [] .empty)
    t.errKind = some .emptyHands ∧ t.outq = [] ∧ t.runState = .haltedOnError := by decide
/-- V-C1. -/
theorem test_copyFrom :
    let t := after (start 0x10006000#32 room .empty)
    t.hands = .number 2 ∧ t.pc = 1 ∧ t.mem = room := by decide
/-- V-C4. -/
theorem test_copyFrom_negativeAddress :
    (after (start 0x10003FFF#32 room .empty)).errKind = some .directAddressOutOfRange := by decide
/-- V-C5. -/
theorem test_copyFromIndirect : (after (start 0x18006000#32 room .empty)).hands = .letter 'Q' := by decide
/-- V-C6. -/
theorem test_copyFromIndirect_empty :
    (after (start 0x18006001#32 room .empty)).errKind = some .readingEmptyCell := by decide
/-- V-C8. -/
theorem test_copyTo :
    let t := after (start 0x20006003#32 room (.number 5))
    t.mem.read 3 = .number 5 ∧ t.hands = .empty ∧ t.pc = 1 := by decide
/-- V-C9. -/
theorem test_copyTo_emptyHandsFirst :
    (after (start 0x20006009#32 room .empty)).errKind = some .emptyHands := by decide
/-- V-C11. -/
theorem test_copyToIndirect :
    let t := after (start 0x28006001#32 room (.number (-4)))
    t.mem.read 3 = .number (-4) ∧ t.mem.read 1 = .memoryAddress 3 ∧ t.hands = .empty := by decide
/-- V-C13. -/
theorem test_copyToIndirect_badPointer :
    let t := after (start 0x28006002#32 room (.letter 'Q'))
    t.errKind = some .invalidDirectAddressType ∧ t.mem = room := by decide
/-- V-A2. -/
theorem test_add_atLimit : (after (start 0x30006000#32 [(0, .number 499)] (.number 500))).hands = .number 999 := by decide
/-- V-A7. -/
theorem test_add_handsFirst :
    (after (start 0x30006009#32 [(0, .number 1)] (.letter 'A'))).errKind = some .badAddendTypeInHands := by decide
/-- V-A16. -/
theorem test_addIndirect :
    (after (start 0x38006000#32 [(0, .number 2), (2, .number (-11))] (.number 10))).hands = .number (-1) := by decide
/-- V-A18. -/
theorem test_addIndirect_badCell :
    (after (start 0x38006000#32 [(0, .number 2), (2, .letter 'Q')] (.number 1))).errKind =
      some .badAddendTypeInMemory := by decide
/-- V-A10. -/
theorem test_sub : (after (start 0x40006000#32 [(0, .number 9)] (.number 4))).hands = .number (-5) := by decide
/-- V-A12. -/
theorem test_sub_overflow :
    let t := after (start 0x40006000#32 [(0, .number (-1))] (.number 999))
    t.errKind = some .overflow ∧ t.hands = .number 999 := by decide
/-- V-A17. -/
theorem test_subIndirect_underflow :
    let t := after (start 0x48006000#32 [(0, .memoryAddress 1), (1, .number 1)] (.number (-999)))
    t.errKind = some .underflow ∧ t.hands = .number (-999) := by decide
/-- V-A13, through a pointer. -/
theorem test_subIndirect :
    (after (start 0x48006000#32 [(0, .memoryAddress 1), (1, .number 999)] (.number 0))).hands = .number (-999) := by decide
/-- V-U1. -/
theorem test_bumpUp :
    let t := after (start 0x50006000#32 [(0, .number 998)] (.letter 'A'))
    t.mem.read 0 = .number 999 ∧ t.hands = .number 999 ∧ t.pc = 1 := by decide
/-- V-U3. -/
theorem test_bumpUp_overflow :
    let t := after (start 0x50006000#32 [(0, .number 999)] .empty)
    t.errKind = some .overflow ∧ t.mem.read 0 = .number 999 ∧ t.hands = .empty := by decide
/-- V-U7. -/
theorem test_bumpUpIndirect :
    let t := after (start 0x58006000#32 [(0, .number 1), (1, .number 41)] .empty)
    t.mem.read 1 = .number 42 ∧ t.hands = .number 42 ∧ t.mem.read 0 = .number 1 := by decide
/-- V-U8. -/
theorem test_bumpUpIndirect_selfPointer :
    (after (start 0x58006000#32 [(0, .number 0)] .empty)).mem.read 0 = .number 1 := by decide
/-- V-U10. -/
theorem test_bumpDown :
    let t := after (start 0x60006000#32 [(0, .number 0)] .empty)
    t.mem.read 0 = .number (-1) ∧ t.hands = .number (-1) := by decide
/-- V-U11. -/
theorem test_bumpDown_underflow :
    let t := after (start 0x60006000#32 [(0, .number (-999))] .empty)
    t.errKind = some .underflow ∧ t.mem.read 0 = .number (-999) := by decide
/-- V-U12. -/
theorem test_bumpDownIndirect :
    let t := after (start 0x68006000#32 [(0, .number 1), (1, .number (-998))] .empty)
    t.mem.read 1 = .number (-999) ∧ t.hands = .number (-999) := by decide
/-- V-I4, in a bump: the pointer cell is Empty. -/
theorem test_bumpDownIndirect_emptyPointer :
    (after (start 0x68006003#32 room .empty)).errKind = some .invalidDirectAddressType := by decide
/-- V-J10. -/
theorem test_jump :
    let t := after (start 0x70008009#32 [] (.number 1))
    t.pc = 9 ∧ t.icount = 1 ∧ t.hands = .number 1 ∧ t.runState = .running := by decide
/-- V-J2. -/
theorem test_jumpIfZero_taken : (after (start 0x78008003#32 [] (.number 0))).pc = 3 := by decide
/-- V-J4. -/
theorem test_jumpIfZero_emptyHands :
    let t := after (start 0x78008003#32 [] .empty)
    t.errKind = some .badJumpConditionType ∧ t.pc = 0 := by decide
/-- V-J6. -/
theorem test_jumpIfNegative_taken : (after (start 0x80008003#32 [] (.number (-1)))).pc = 3 := by decide
/-- V-J8. -/
theorem test_jumpIfNegative_zero : (after (start 0x80008003#32 [] (.number 0))).pc = 1 := by decide

/-! ## The engine -/

/-- V-B1. -/
theorem test_budget_lastInstruction :
    let t := after { start 0x70008000#32 [] .empty with icount := 999 }
    t.icount = 1000 ∧ t.runState = .running := by decide
/-- V-B3. -/
theorem test_budget_beforeInput :
    let t := after { start 0x00000000#32 [] .empty with icount := 1000 }
    t.runState = .haltedOnBudgetExceeded ∧ t.icount = 1000 := by decide
/-- V-B4. -/
theorem test_budget_beforePcBound :
    (after { start 0x00000000#32 [] .empty with icount := 1000, pc := 1 }).runState = .haltedOnBudgetExceeded := by decide
/-- V-F1: the machine at State.reset, with nothing placed. -/
theorem test_emptyProgram :
    let t := after State.reset
    t.runState = .haltedOnInternalFault ∧ t.faultKind = some .pcOutOfRange ∧ t.pc = 0 ∧ t.icount = 0 := by decide
/-- V-F2. -/
theorem test_illegalInstruction :
    let t := after (start 0x88000000#32 [] .empty)
    t.runState = .haltedOnInternalFault ∧ t.faultKind = some .illegalInstruction ∧ t.pc = 0 ∧ t.errKind = none := by decide
/-- V-S2. -/
theorem test_suspended_wakes :
    let t := after (waiting (tick [.number 4] false false))
    t.runState = .running ∧ t.hands = .number 4 ∧ t.inCursor = 1 ∧ t.pc = 1 ∧ t.icount = 1 := by decide
/-- V-S5. -/
theorem test_suspended_cancelled :
    let t := after (waiting (tick [] true false))
    t.runState = .cancelled ∧ t.pc = 0 ∧ t.icount = 0 := by decide
/-- V-S1 and V-S7. -/
theorem test_inbox_suspends :
    (after { waiting (tick [] true false) with runState := .running }).runState = .suspended := by decide
/-- V-R1. -/
theorem test_reset :
    let t := after { start 0x08000000#32 room (.number 1) with mem := [], pc := 7, hostInputs := [tick [] false true] }
    t.mem = room ∧ t.pc = 0 ∧ t.hands = .empty ∧ t.launch.prog = [0x08000000#32] := by decide
/-- The host's placing of one word: the very next step runs it. -/
theorem test_withFetchWord : (after (State.reset.withFetchWord 32 0x70008009)).pc = 9 := by decide

/-! ## Authoring, the loader, the status map and the outcome -/

/-- The outcome of V-S5, one step after the state of V-S4. -/
theorem test_cancelled_outcome :
    (after { waiting (tick [] true false) with
      hands := .number 4, icount := 3, inCursor := 1, inq := [.number 4], outq := [.number 4] }).outcome =
      some (.cancelled (.number 4) 0 3 1 [.number 4] []) := by decide


/-- P1 of section 4, with R90's arrow and comment. -/
theorem test_assemble :
    assembleProgram ["INBOX".toList, "JUMP_IF_ZERO → 4".toList, "JUMP 1 # back".toList, ".word 0x10003FFF".toList] =
      some [0x00000000#32, 0x78008003#32, 0x70008000#32, 0x10003FFF#32] := by decide
theorem test_assemble_refuses :
    ["JUMP 0".toList, "ADD 8192".toList, "INBOX 1".toList, "NOP".toList].map assembleLine = [none, none, none, none] := by
  decide
/-- R40's fields, at the end of a run that ended on Overflow (P7 of section 4). -/
theorem test_status :
    let s : State := { start 0x30006000#32 [] (.number 1) with runState := .haltedOnError, errKind := some .overflow }
    s.readStatus .status = 0x0000006A#32 ∧ s.readStatus .hands = 0x00002001#32 ∧
      s.readStatus .maxInstr = 0x000003E8#32 := by decide
theorem test_loadRoom_refuses :
    (match State.reset.loadRoom 4 [(4, .number 1)] with | .error e => some e | .ok _ => none) = some .indexOutsideRoom ∧
    (match State.reset.loadRoom 4 [(3, .number 1000)] with | .error e => some e | .ok _ => none) = some .invalidValue := by
  decide

/-! ## Witnesses: concrete inputs that meet the hypotheses of each statement, clause by clause -/

/-- A run with MEM_LEN = 4, the bank `room`, and INBOX at pc. -/
def s0 : State := start 0x00000000#32 room .empty

/-- s0 with hands h. -/
def holding (h : Value) : State := { s0 with hands := h }

/-- A run whose program is the words ws, with the counter at n. -/
def running (ws : List InsnWord) (n : Count) : State :=
  { s0 with launch := { s0.launch with prog := ws }, icount := n }

theorem witness_names_direct : Names s0 .direct (.number 0) 0 ∧ Names s0 .direct (.memoryAddress 3) 3 :=
  ⟨⟨.inl rfl, by decide⟩, ⟨.inr rfl, by decide⟩⟩
theorem witness_names_indirect : Names s0 .indirect (.number 0) 2 ∧ Names s0 .indirect (.memoryAddress 1) 3 :=
  ⟨⟨0, ⟨.inl rfl, by decide⟩, .inl rfl, by decide⟩, ⟨1, ⟨.inr rfl, by decide⟩, .inr rfl, by decide⟩⟩

theorem witness_addressError_direct :
    AddressError s0 .direct (.programAddress 0) .invalidDirectAddressType ∧
      AddressError s0 .direct (.number (-1)) .directAddressOutOfRange ∧
      AddressError s0 .direct (.memoryAddress 4) .directAddressOutOfRange :=
  ⟨.directType (.inr (.inr ⟨0, rfl⟩)), .directRange (.inl ⟨-1, rfl, .inl (by decide)⟩),
    .directRange (.inr ⟨4, rfl, by decide⟩)⟩
theorem witness_addressError_indirect :
    AddressError s0 .indirect (.letter 'A') .invalidIndirectAddressType ∧
      AddressError s0 .indirect (.number 4) .indirectAddressOutOfRange ∧
      AddressError s0 .indirect (.memoryAddress 3) .invalidDirectAddressType ∧
      AddressError { s0 with mem := [(0, .number 4)] } .indirect (.memoryAddress 0) .directAddressOutOfRange :=
  ⟨.indirectType (.inr (.inl ⟨_, rfl⟩)), .indirectRange (.inl ⟨4, rfl, .inr (by decide)⟩),
    .pointerType (n := 3) ⟨.inr rfl, by decide⟩ (.inl rfl),
    .pointerRange (n := 0) ⟨.inr rfl, by decide⟩ (.inl ⟨4, rfl, .inr (by decide)⟩)⟩

theorem witness_invariants : Inv State.reset := by
  refine ⟨⟨by decide, ?_, ?_, ?_, ?_, ?_⟩, ⟨by decide, ?_, by decide, ?_⟩,
    ⟨⟨by decide, by decide⟩, by decide, by decide, by decide, by decide, by decide, fun h => by cases h⟩,
    ⟨by decide, by decide, by decide, by decide, by decide, by decide, fun h => by cases h⟩⟩ <;>
    simp [State.reset, Launch.blank]

theorem witness_ResetRestoresEveryPieceOfState :
    State.hostTick { s0 with hostInputs := [tick [.number 1] true true] } = tick [.number 1] true true ∧
      (tick [.number 1] true true).reset = true := by decide

theorem witness_StepRunsTheDecodedInstruction :
    let s := running [0x08000000#32] 999
    s.runState = .running ∧ s.hostTick.reset = false ∧ s.icount.toNat < 1000 ∧
      s.launch.prog[s.pc.toNat]? = some 0x08000000#32 ∧ decode 0x08000000#32 = .ok .outbox := by decide

theorem witness_LoopEntryChecksInOrder_budget :
    let s := running [] 1000
    s.runState = .running ∧ s.hostTick.reset = false ∧ 1000 ≤ s.icount.toNat := by decide
theorem witness_LoopEntryChecksInOrder_pcBound :
    let s := { running [0x08000000#32] 999 with pc := 1 }
    s.runState = .running ∧ s.hostTick.reset = false ∧ s.icount.toNat < 1000 ∧ s.launch.prog.length ≤ s.pc.toNat := by
  decide
theorem witness_LoopEntryChecksInOrder_fetched :
    let s := running [0x88000000#32, 0x08000000#32] 999
    s.runState = .running ∧ s.hostTick.reset = false ∧ s.icount.toNat < 1000 ∧
      s.launch.prog[s.pc.toNat]? = some 0x88000000#32 ∧ decode 0x88000000#32 = .error .reservedOpcode ∧
      s.launch.prog[1]? = some 0x08000000#32 ∧ decode 0x08000000#32 = .ok .outbox := by decide

theorem witness_TerminalStatesAreQuiescent :
    let s := { s0 with runState := .haltedOnError, errKind := some .overflow }
    s.runState.terminal = true ∧ s.hostTick.reset = false ∧
      ({ s with hostInputs := [tick [] false true] } : State).hostTick.reset = true := by decide

theorem witness_SuspendedRunWakesOrIsCancelled :
    (let s := waiting (tick [.number 4] false false);
      s.runState = .suspended ∧ s.hostTick.reset = false ∧ s.inqAfterPushes[s.inCursor.toNat]? = some (.number 4) ∧
        s.hostTick.cancel = false) ∧
    (let s := waiting (tick [] true false);
      s.runState = .suspended ∧ s.hostTick.reset = false ∧ s.inqAfterPushes.length ≤ s.inCursor.toNat ∧
        s.hostTick.cancel = true) ∧
    (let s := waiting (tick [.empty] true false);
      s.runState = .suspended ∧ s.hostTick.reset = false ∧ s.inqAfterPushes[s.inCursor.toNat]? = some .empty ∧
        s.hostTick.cancel = true) := by decide

theorem witness_SuspendedRunWaitsUnchanged :
    let s := waiting HostTick.idle
    s.runState = .suspended ∧ s.hostTick.reset = false ∧ s.hostTick.cancel = false ∧
      s.inqAfterPushes.length ≤ s.inCursor.toNat := by decide

theorem witness_CancelActsOnlyWhileSuspended :
    (let s := waiting (tick [] true false);
      s.runState = .suspended ∧ s.hostTick.reset = false ∧ s.hostTick.cancel = true ∧
        s.inqAfterPushes.length ≤ s.inCursor.toNat) ∧
      s0.runState ≠ .suspended ∧ StatusCoherent State.reset ∧ State.reset.launch.interactive = false :=
  ⟨by decide, by decide, witness_invariants.status, rfl⟩

theorem witness_InboxFollowsItsRule :
    ({ s0 with inq := [.empty] } : State).inq[0]? = some .empty ∧ s0.inq.length ≤ s0.inCursor.toNat ∧
      s0.launch.interactive = false ∧
      (waiting HostTick.idle).inq.length ≤ (waiting HostTick.idle).inCursor.toNat ∧
      (waiting HostTick.idle).launch.interactive = true := by decide

theorem witness_OutboxFollowsItsRule : s0.hands = .empty ∧ (holding (.memoryAddress 5)).hands ≠ .empty := by decide

theorem witness_CopyFromFollowsItsRule :
    Names s0 .direct (.memoryAddress 3) 3 ∧ s0.mem.read 3 = .empty ∧ Names s0 .indirect (.memoryAddress 1) 3 ∧
      Names s0 .direct (.number 0) 0 ∧ s0.mem.read 0 ≠ .empty ∧ Names s0 .indirect (.number 0) 2 ∧
      s0.mem.read 2 ≠ .empty ∧ (0x10006003#32 : InsnWord) &&& 0xFFFF0000#32 = 0x10000000#32 ∧
      decodeValue ((0x10006003#32 : InsnWord).extractLsb' 0 16) = some (.memoryAddress 3) ∧
      (0x18002000#32 : InsnWord) &&& 0xFFFF0000#32 = 0x18000000#32 ∧
      decodeValue ((0x18002000#32 : InsnWord).extractLsb' 0 16) = some (.number 0) :=
  ⟨witness_names_direct.2, by decide, witness_names_indirect.2, witness_names_direct.1, by decide,
    witness_names_indirect.1, by decide, by decide, by decide, by decide, by decide⟩

theorem witness_CopyToFollowsItsRule :
    s0.hands = .empty ∧ (holding (.number 5)).hands ≠ .empty ∧
      AddressError (holding (.number 5)) .direct (.memoryAddress 4) .directAddressOutOfRange ∧
      Names (holding (.number 5)) .direct (.memoryAddress 3) 3 ∧
      AddressError (holding (.number 5)) .indirect (.memoryAddress 3) .invalidDirectAddressType ∧
      Names (holding (.number 5)) .indirect (.memoryAddress 1) 3 ∧
      (0x20006003#32 : InsnWord) &&& 0xFFFF0000#32 = 0x20000000#32 ∧
      decodeValue ((0x20006003#32 : InsnWord).extractLsb' 0 16) = some (.memoryAddress 3) ∧
      (0x28006001#32 : InsnWord) &&& 0xFFFF0000#32 = 0x28000000#32 ∧
      decodeValue ((0x28006001#32 : InsnWord).extractLsb' 0 16) = some (.memoryAddress 1) :=
  ⟨rfl, by decide, .directRange (.inr ⟨4, rfl, by decide⟩), ⟨.inr rfl, by decide⟩,
    .pointerType (n := 3) ⟨.inr rfl, by decide⟩ (.inl rfl), ⟨1, ⟨.inr rfl, by decide⟩, .inr rfl, by decide⟩, by decide,
    by decide, by decide, by decide⟩

/-- A run with hands Number(a) and the bank [Number(1), Number(b)]: cell 1 is named directly, and by the pointer in
cell 0. -/
def pair (a b : Int) : State := { s0 with hands := .number a, mem := [(0, .number 1), (1, .number b)] }

/-- s0 with the bank [Number(1)]: cell 1 is Empty, and named by the pointer in cell 0. -/
def hollow (h : Value) : State := { s0 with hands := h, mem := [(0, .number 1)] }

theorem pair_names (a b : Int) :
    (pair a b).hands = .number a ∧ Names (pair a b) .direct (.number 1) 1 ∧
      Names (pair a b) .indirect (.number 0) 1 ∧ (pair a b).mem.read 1 = .number b :=
  ⟨rfl, ⟨.inl rfl, show 1 < 4 by decide⟩,
    ⟨0, ⟨.inl rfl, show 0 < 4 by decide⟩, .inl rfl, show 1 < 4 by decide⟩, rfl⟩

theorem hollow_names (h : Value) :
    (hollow h).hands = h ∧ Names (hollow h) .direct (.number 1) 1 ∧ Names (hollow h) .indirect (.number 0) 1 ∧
      NotNumber ((hollow h).mem.read 1) :=
  ⟨rfl, ⟨.inl rfl, show 1 < 4 by decide⟩,
    ⟨0, ⟨.inl rfl, show 0 < 4 by decide⟩, .inl rfl, show 1 < 4 by decide⟩,
    fun n => by show Value.empty ≠ .number n; simp⟩

theorem pair_addressErrors (a b : Int) :
    AddressError (pair a b) .direct (.number 4) .directAddressOutOfRange ∧
      AddressError (pair a b) .indirect (.memoryAddress 2) .invalidDirectAddressType :=
  ⟨.directRange (.inl ⟨4, rfl, .inr (by show (4 : Int) ≤ 4; decide)⟩),
    .pointerType (n := 2) ⟨.inr rfl, show 2 < 4 by decide⟩ (.inl rfl)⟩

theorem witness_notNumber : NotNumber .empty ∧ NotNumber (.memoryAddress 0) :=
  ⟨fun n => by simp, fun n => by simp⟩

/-- The sums on either side of each bound: with pair_names, hollow_names, witness_notNumber and pair_addressErrors,
every clause of ArithRule for ADD. -/
theorem witness_AddFollowsItsRule :
    ((999 : Int) < 501 + 499 ∧ (-501 : Int) + -499 < -999) ∧ ((-999 : Int) ≤ -500 + -499 ∧ (500 : Int) + 499 ≤ 999) ∧
      (0x30006001#32 : InsnWord) &&& 0xFFFF0000#32 = 0x30000000#32 ∧
      (0x38006001#32 : InsnWord) &&& 0xFFFF0000#32 = 0x38000000#32 ∧
      decodeValue ((0x38006001#32 : InsnWord).extractLsb' 0 16) = some (.memoryAddress 1) := by decide

/-- The same for SUB: pair 501 (-499), pair (-501) 499, pair (-500) 499 and pair 500 (-499). -/
theorem witness_SubFollowsItsRule :
    ((999 : Int) < 501 - -499 ∧ (-501 : Int) - 499 < -999) ∧ ((-999 : Int) ≤ -500 - 499 ∧ (500 : Int) - -499 ≤ 999) ∧
      (0x40002001#32 : InsnWord) &&& 0xFFFF0000#32 = 0x40000000#32 ∧
      (0x48002001#32 : InsnWord) &&& 0xFFFF0000#32 = 0x48000000#32 ∧
      decodeValue ((0x48002001#32 : InsnWord).extractLsb' 0 16) = some (.number 1) := by decide

/-- BUMP_UP at cells 999 and 998: with pair_names, hollow_names and pair_addressErrors, every clause. -/
theorem witness_BumpUpFollowsItsRule :
    (999 : Int) < 999 + 1 ∧ ((-999 : Int) ≤ 998 + 1 ∧ (998 : Int) + 1 ≤ 999) ∧
      (0x50006000#32 : InsnWord) &&& 0xFFFF0000#32 = 0x50000000#32 ∧
      (0x58006000#32 : InsnWord) &&& 0xFFFF0000#32 = 0x58000000#32 ∧
      decodeValue ((0x58006000#32 : InsnWord).extractLsb' 0 16) = some (.memoryAddress 0) := by decide

/-- BUMP_DOWN at cells -999 and -998. -/
theorem witness_BumpDownFollowsItsRule :
    (-999 : Int) + -1 < -999 ∧ ((-999 : Int) ≤ -998 + -1 ∧ (-998 : Int) + -1 ≤ 999) ∧
      (0x60006000#32 : InsnWord) &&& 0xFFFF0000#32 = 0x60000000#32 ∧
      (0x68006000#32 : InsnWord) &&& 0xFFFF0000#32 = 0x68000000#32 ∧
      decodeValue ((0x68006000#32 : InsnWord).extractLsb' 0 16) = some (.memoryAddress 0) := by decide

theorem witness_JumpFollowsItsRule :
    8191 ≤ 8191 ∧ (0x70009FFF#32 : InsnWord) &&& 0xFFFFE000#32 = 0x70008000#32 := by decide

/-- JUMP_IF_ZERO at 0, 1 and a hand that is no Number. -/
theorem witness_JumpIfZeroFollowsItsRule :
    (holding (.number 0)).hands = .number 0 ∧ (holding (.number 1)).hands = .number 1 ∧ ¬ (1 : Int) = 0 ∧
      NotNumber s0.hands ∧ (0x78008003#32 : InsnWord) &&& 0xFFFFE000#32 = 0x78008000#32 :=
  ⟨rfl, rfl, by decide, witness_notNumber.1, by decide⟩

/-- JUMP_IF_NEGATIVE at -1, 0 and a hand that is no Number. -/
theorem witness_JumpIfNegativeFollowsItsRule :
    (holding (.number (-1))).hands = .number (-1) ∧ (-1 : Int) < 0 ∧ (holding (.number 0)).hands = .number 0 ∧
      ¬ (0 : Int) < 0 ∧ NotNumber (holding (.memoryAddress 0)).hands ∧
      (0x80009FFF#32 : InsnWord) &&& 0xFFFFE000#32 = 0x80008000#32 :=
  ⟨rfl, by decide, rfl, by decide, witness_notNumber.2, by decide⟩

/-- V-J10's program, with 999 - 1 and with 999 instructions done. -/
theorem witness_JumpPastTheEndFaultsAtTheNextStep :
    (let s := running [0x70008001#32] 998;
      s.runState = .running ∧ (∀ h ∈ s.hostInputs, h.reset = false) ∧ s.icount.toNat < 999 ∧
        s.launch.prog[s.pc.toNat]? = some 0x70008001#32 ∧ s.launch.prog.length ≤ 1) ∧
    (running [0x70008001#32] 999).icount.toNat = 999 ∧ decode 0x70008001#32 = .ok (.jump 1) := by decide

theorem witness_OuterStageFailureReadsNoCell :
    NotAddress (.letter 'A') ∧ OutsideBank s0 (.number (-1)) ∧ OutsideBank s0 (.memoryAddress 4) :=
  ⟨.inr (.inl ⟨_, rfl⟩), .inl ⟨-1, rfl, .inl (by decide)⟩, .inr ⟨4, rfl, by decide⟩⟩

theorem witness_RangeCheckByDirection :
    (999 : Int) < 1000 ∧ (-1000 : Int) < -999 ∧ ((-999 : Int) ≤ -999 ∧ (-999 : Int) ≤ 999) ∧
      (-999 : Int) ≤ 999 ∧ (999 : Int) ≤ 999 := by decide

theorem witness_BankReadsWhatWasWritten : Memory.wf room ∧ 3 ≠ 2 := by decide

/-- Two banks that agree on cell 0 alone: COPYFROM 0 reads cell 0 alone. -/
theorem witness_InstructionReadsAtMostItsTwoCells :
    let i : Instr := .copyFrom (.memoryAddress 0)
    (∀ n, NamesCell s0 i.param n → Memory.read [(0, .number 2), (3, .number 7)] n = s0.mem.read n ∧
      ∀ k, i.indirect = true → NamesCell s0 (s0.mem.read n) k →
        Memory.read [(0, .number 2), (3, .number 7)] k = s0.mem.read k) ∧
    exec i s0 = .next (ran i s0) := by
  refine ⟨?_, rfl⟩
  rintro n ⟨hn | hn, -⟩
  · cases hn
  · cases hn
    exact ⟨rfl, fun k hk => by cases hk⟩

/-- A step that commits and a step that halts, from State.reset with a program. -/
theorem witness_StepCountsExactlyTheCommits :
    CountersBounded State.reset ∧ State.reset.hostTick.reset = false ∧ step State.reset = .next (after State.reset) ∧
      step (running [0x70008000#32] 999) = .next (after (running [0x70008000#32] 999)) :=
  ⟨witness_invariants.counters, rfl, step_after _, step_after _⟩

theorem witness_PcMovesByOpcode :
    (Instr.outbox.opcode < 14 ∧ s0.runState = .running ∧ (ran .outbox s0).runState ≠ .running ∧
      (ran .outbox (holding (.number 1))).runState = .running) ∧
    exec .outbox s0 = .next (ran .outbox s0) ∧ exec (.jump 8191) s0 = .next (ran (.jump 8191) s0) ∧
    exec (.jumpIfZero 8191) (holding (.number 0)) = .next (ran (.jumpIfZero 8191) (holding (.number 0))) ∧
    exec (.jumpIfNegative 0) (holding (.number (-1))) = .next (ran (.jumpIfNegative 0) (holding (.number (-1)))) :=
  ⟨by decide, exec_ran _ _, exec_ran _ _, exec_ran _ _, exec_ran _ _⟩

/-- An instruction that raises, one that halts normally and one that suspends. -/
theorem witness_FailedInstructionWritesNothing :
    (exec .outbox s0 = .next (ran .outbox s0) ∧ (ran .outbox s0).runState = .haltedOnError) ∧
    (exec .inbox s0 = .next (ran .inbox s0) ∧ (ran .inbox s0).runState = .haltedNormally) ∧
    (let s := { waiting HostTick.idle with runState := .running };
      exec .inbox s = .next (ran .inbox s) ∧ (ran .inbox s).runState = .suspended) :=
  ⟨⟨exec_ran _ _, by decide⟩, ⟨exec_ran _ _, by decide⟩, ⟨exec_ran _ _, by decide⟩⟩

theorem witness_OnlyTheNamedCellIsStoredTo :
    (Instr.copyFrom (.number 0)).storeAddress = none ∧
      exec (.copyFrom (.number 0)) s0 = .next (ran (.copyFrom (.number 0)) s0) ∧
    (Instr.copyToIndirect (.memoryAddress 1)).storeAddress = some (.indirect, .memoryAddress 1) ∧
      exec (.copyToIndirect (.memoryAddress 1)) (holding (.number 5)) =
        .next (ran (.copyToIndirect (.memoryAddress 1)) (holding (.number 5))) ∧
      (holding (.number 5)).validate .indirect (.memoryAddress 1) = .ok 3 :=
  ⟨rfl, exec_ran _ _, rfl, exec_ran _ _, rfl⟩

theorem witness_HandsChangesOnlyBySuccessfulWriters :
    s0.runState = .running ∧ exec (.copyFrom (.number 0)) s0 = .next (ran (.copyFrom (.number 0)) s0) ∧
      (ran (.copyFrom (.number 0)) s0).hands ≠ s0.hands ∧
      exec (.copyTo (.number 3)) (holding (.number 5)) = .next (ran (.copyTo (.number 3)) (holding (.number 5))) ∧
      (ran (.copyTo (.number 3)) (holding (.number 5))).runState = .running :=
  ⟨rfl, exec_ran _ _, by decide, exec_ran _ _, by decide⟩

theorem witness_QueuesMoveOnlyByTheirInstruction :
    s0.runState = .running ∧ exec .outbox (holding (.number 1)) = .next (ran .outbox (holding (.number 1))) ∧
      exec .inbox { s0 with inq := [.number 7] } = .next (ran .inbox { s0 with inq := [.number 7] }) :=
  ⟨rfl, exec_ran _ _, exec_ran _ _⟩

theorem witness_InstructionsLeaveTheirSurroundings :
    exec (.jump 3) s0 = .next (ran (.jump 3) s0) ∧ (ran (.jump 3) s0).icount = s0.icount + 1 :=
  ⟨exec_ran _ _, by decide⟩

theorem witness_ProgramIsImmutable :
    step s0 = .next (after s0) ∧ s0.launch.interactive = false ∧
      step (waiting (tick [.number 4] false true)) = .next (after (waiting (tick [.number 4] false true))) :=
  ⟨step_after _, rfl, step_after _⟩

theorem witness_ErrorsComeFromTheirRaisers :
    ValuesLegal State.reset ∧ exec .outbox State.reset = .next (ran .outbox State.reset) ∧
      (ran .outbox State.reset).errKind = some .emptyHands ∧ State.reset.errKind = none :=
  ⟨witness_invariants.values, exec_ran _ _, by decide, rfl⟩

/-- The premises hold only of a state that held the code before: the statement says that no instruction makes it. -/
theorem witness_BankIndexAndInvalidValueAreUnreachable :
    let s := { s0 with faultKind := some .bankIndex, errKind := some .invalidValue }
    exec (.jump 0) s = .next (ran (.jump 0) s) ∧ (ran (.jump 0) s).faultKind = some .bankIndex ∧
      (ran (.jump 0) s).errKind = some .invalidValue := ⟨exec_ran _ _, by decide, by decide⟩

theorem witness_OutputStrobeCarriesEachOutputOnce :
    let s := start 0x08000000#32 room (.number 1)
    s.hostTick.reset = false ∧ step s = .next (after s) ∧ outStrobe s (after s) ≠ [] := ⟨rfl, step_after _, by decide⟩

theorem witness_ModeDecidesHowInputEnds :
    (let s := { waiting HostTick.idle with runState := .running };
      step s = .next (after s) ∧ s.launch.interactive = true ∧ s.runState ≠ .haltedNormally) ∧
    step s0 = .next (after s0) ∧ s0.launch.interactive = false ∧ s0.runState ≠ .suspended ∧
      s0.runState ≠ .cancelled := ⟨⟨step_after _, by decide⟩, step_after _, by decide⟩

/-- V-H1, and V-H2 at the bounds of its second clause. -/
theorem witness_StoreIsSeenByTheNextInstruction :
    (holding (.number 6)).mem.wf ∧ (holding (.number 6)).hands ≠ .empty ∧
      NamesCell (holding (.number 6)) (.memoryAddress 0) 0 ∧
    ∀ b ∈ [(-999 : Int), -501, -500, 498], (pair 0 b).mem.wf ∧ NamesCell (pair 0 b) (.number 1) 1 ∧
      (pair 0 b).mem.read 1 = .number b ∧ -999 ≤ b ∧ b ≤ 498 := by
  refine ⟨by decide, by decide, ⟨.inr rfl, by decide⟩, fun b hb => ⟨?_, (pair_names 0 b).2.1, rfl, ?_⟩⟩
  · simp [pair, Memory.wf]
  · simp at hb
    omega

theorem witness_InvariantsHoldInEveryReachableState :
    ValuesLegal State.reset ∧ BankOk State.reset ∧ LaunchOk State.reset ∧ Inv State.reset ∧
      step State.reset = .next (after State.reset) :=
  ⟨witness_invariants.values, witness_invariants.bank, witness_invariants.counters.launch, witness_invariants, step_after _⟩

/-- The hypotheses of BankKeepsItsForm and EveryValueStaysLegal, in a run with a bank and a queue. -/
theorem witness_BankKeepsItsForm_and_EveryValueStaysLegal :
    BankOk (holding (.number 6)) ∧ ValuesLegal (holding (.number 6)) ∧
      step (holding (.number 6)) = .next (after (holding (.number 6))) :=
  ⟨⟨by decide, by decide, by decide, by decide⟩, ⟨by decide, by decide, by decide, by decide, by decide, by decide⟩, step_after _⟩

theorem witness_BatchRunEndsWithinTheBudget :
    Inv State.reset ∧ State.reset.launch.interactive = false ∧ State.reset.noReset :=
  ⟨witness_invariants, rfl, by simp [State.noReset, State.reset]⟩

theorem witness_EngineRunsAtMostTheBudget :
    let s := running [0x70008000#32] 1000
    s.runState = .running ∧ (∀ h ∈ s.hostInputs, h.reset = false) ∧ s.icount.toNat ≤ 1000 := by decide

theorem witness_BatchRunIgnoresTheHost :
    StatusCoherent State.reset ∧ State.reset.launch.interactive = false ∧ State.reset.noReset ∧
      ∀ h ∈ [tick [.number 4] true false], h.reset = false :=
  ⟨witness_invariants.status, rfl, by simp [State.noReset, State.reset], by decide⟩

theorem witness_DecodeInvertsEncode : (Instr.copyFromIndirect (.number (-999))).wellFormed = true := by decide

/-- Hypotheses of EncodeInvertsDecode, ValueWordsAreABijection and IllegalWordsFault. -/
theorem witness_words :
    decode 0x80009FFF#32 = .ok (.jumpIfNegative 8191) ∧ (Value.number (-999)).legal = true ∧
      decodeValue 0x3C19#16 = some (.number (-999)) ∧
      (let s := running [0x88000000#32] 999;
        s.runState = .running ∧ s.hostTick.reset = false ∧ s.icount.toNat < 1000 ∧
          s.launch.prog[s.pc.toNat]? = some 0x88000000#32) ∧
      decode 0x88000000#32 = .error .reservedOpcode := by decide

/-- One word for each clause of ModeBitSelectsTheAddressing, at both modes. -/
theorem witness_ModeBitSelectsTheAddressing :
    (decode 0x18006000#32 = .ok (.copyFromIndirect (.memoryAddress 0)) ∧
      2 ≤ (Instr.copyFromIndirect (.memoryAddress 0)).opcode ∧ (Instr.copyFromIndirect (.memoryAddress 0)).opcode ≤ 13) ∧
    [0x10006000#32, 0x28006000#32, 0x30006000#32, 0x48006000#32, 0x50006000#32, 0x68006000#32].map
      (fun w => (decodeValue (w.extractLsb' 0 16), w.extractLsb' 16 11, w.extractLsb' 28 4)) =
    [1#4, 2#4, 3#4, 4#4, 5#4, 6#4].map (fun k => (some (.memoryAddress 0), 0#11, k)) := by decide

/-- A room at its last cell, a program at its last target, and an input. -/
theorem witness_LoaderEstablishesTheInvariants :
    (∀ h ∈ State.reset.hostInputs, ∀ v ∈ h.pushes, v.legal = true) ∧
      (match State.reset.loadRoom 4 [(3, .number 999)] with
        | .error _ => false
        | .ok a =>
          match a.loadProgram [.copyFrom (.memoryAddress 8191), .jump 1] with
          | .error _ => false
          | .ok b =>
            match b.supplyInput [.number (-999)] with
            | .error _ => false
            | .ok _ => true) = true := by decide

theorem witness_LoadedProgramIsTheOneAuthored :
    (match State.reset.loadProgram [.outbox, .jump 1] with | .error _ => false | .ok _ => true) = true ∧ ([.outbox, .jump 1] : List Instr)[1]? = some (.jump 1) ∧
      (Instr.jump 1).param = .programAddress 1 := ⟨by decide, rfl, rfl⟩

theorem witness_LoaderRefusesIllegalValues :
    (Value.number 999).legal = true ∧ (Value.number 1000).legal = false ∧ decodeValue 0x23E8#16 = none := by decide

theorem witness_StatusMapFields :
    State.reset.launch.memLen ≤ 8192 ∧ State.reset.launch.prog.length ≤ 8192 := by decide

theorem witness_TerminalStatesHaveTheirOutcome :
    StatusCoherent State.reset ∧
      (let s := { State.reset with runState := .haltedOnError, errKind := some .overflow };
        StatusCoherent s ∧ s.runState = .haltedOnError) ∧
      (let s := { State.reset with runState := .haltedOnInternalFault, faultKind := some .pcOutOfRange };
        StatusCoherent s ∧ s.runState = .haltedOnInternalFault) ∧
      (let s := { State.reset with runState := .haltedNormally };
        StatusCoherent s ∧ s.runState = .haltedNormally) ∧
      (let s := { State.reset with runState := .haltedOnBudgetExceeded };
        StatusCoherent s ∧ s.runState = .haltedOnBudgetExceeded) ∧
      (let s := { State.reset with runState := .cancelled, launch := { Launch.blank with interactive := true } };
        StatusCoherent s ∧ s.runState = .cancelled) := by
  refine ⟨witness_invariants.status, ⟨?_, rfl⟩, ⟨?_, rfl⟩, ⟨?_, rfl⟩, ⟨?_, rfl⟩, ⟨?_, rfl⟩⟩ <;>
    exact ⟨by decide, by decide, by decide, by decide, by decide, by decide, by decide⟩

end Sys2Proof.Tests
end

section
/-! PROOFS. 00_scope.md: what a run is given (R7) stays through every step; only the host's pushes lengthen the input
queue (10_state.md R36, R37). -/

namespace Sys2Proof.Machine

/-! ## What the engine leaves alone -/

@[simp] theorem State.wake_launch (s : State) (v : Value) : (s.wake v).launch = s.launch := rfl
@[simp] theorem State.wake_inq (s : State) (v : Value) : (s.wake v).inq = s.inq := rfl

/-- No move of the engine writes the program, the room, MEM_LEN or the mode. -/
theorem EngineMove.launch_eq {cancel : Bool} {s t : State} (h : EngineMove cancel s t) : t.launch = s.launch := by
  cases h <;> simp

/-- No move of the engine writes the input queue: INBOX advances the cursor only. -/
theorem EngineMove.inq_eq {cancel : Bool} {s t : State} (h : EngineMove cancel s t) : t.inq = s.inq := by
  cases h <;> simp

/-! ## What the host's pushes do to the queue -/

theorem State.inqAfterPushes_of_interactive {s : State} (h : s.launch.interactive = true) :
    s.inqAfterPushes = s.inq ++ s.hostTick.pushes := if_pos h

/-- In batch mode a push is ignored (10_state.md R41). -/
theorem State.inqAfterPushes_of_batch {s : State} (h : s.launch.interactive = false) : s.inqAfterPushes = s.inq :=
  if_neg (by simp [h])

theorem State.exists_inqAfterPushes_eq_append (s : State) : ∃ l, s.inqAfterPushes = s.inq ++ l := by
  cases h : s.launch.interactive with
  | true => exact ⟨s.hostTick.pushes, State.inqAfterPushes_of_interactive h⟩
  | false => exact ⟨[], by simp [State.inqAfterPushes_of_batch h]⟩

/-! ## One step -/

/-- What any step, RESET included, makes of the launch values and of the queue. -/
theorem step_launch_inq {s t : State} (h : step s = .next t) : t.launch = s.launch ∧ t.inq = s.inqAfterPushes := by
  obtain ⟨t', ht, hcases⟩ := step_cases s
  obtain rfl : t' = t := by simpa [ht] using h
  rcases hcases with ⟨-, rfl⟩ | ⟨-, hmove⟩
  · exact ⟨rfl, rfl⟩
  · exact ⟨hmove.launch_eq, hmove.inq_eq⟩

/-- Settles O33: RESET and every engine move keep the launch values and the queue that the pushes left. -/
theorem programIsImmutable : Obligations.ProgramIsImmutable := by
  intro s t h
  obtain ⟨hlaunch, hinq⟩ := step_launch_inq h
  rw [hinq]
  exact ⟨hlaunch, s.exists_inqAfterPushes_eq_append, State.inqAfterPushes_of_batch⟩

end Sys2Proof.Machine
end

section
/-! PROOFS. 10_state.md: the registers and status fields, what an instruction and a step do to them, and the invariants
of R44, which hold after RESET and which every step keeps. -/

namespace Sys2Proof.Machine

/-! ## What an instruction answers -/

/-- The next state of an instruction: a commit of the known shape, an error, or an INBOX that finds no input. -/
theorem exec_next_cases {i : Instr} {s t : State} (h : exec i s = .next t) :
    (∃ c, checksOf s i = .ok c ∧ CommitShape i s c ∧ t = s.commit c) ∨
      (∃ e, checksOf s i = .error (.raise e) ∧ t = s.raise e) ∨
      (i = .inbox ∧ s.nextInput = none ∧ (t = s.suspend ∨ t = s.haltNormally)) := by
  rcases exec_cases i s with ⟨c, hc, hshape, hx⟩ | ⟨e, he, hx⟩ | ⟨rfl, hn, hx⟩ <;> rw [hx] at h <;> cases h
  · exact .inl ⟨c, hc, hshape, rfl⟩
  · exact .inr (.inl ⟨e, he, rfl⟩)
  · refine .inr (.inr ⟨rfl, hn, ?_⟩)
    split
    · exact .inl rfl
    · exact .inr rfl

/-- A commit by COPYTO, in either mode, leaves hands Empty (42_copy.md R142, R143). -/
theorem copyTo_commit_hands {i : Instr} {p : Value} {s : State} {c : Commit}
    (hi : i = .copyTo p ∨ i = .copyToIndirect p) (h : checksOf s i = .ok c) : c.hands = .empty := by
  rcases hi with rfl | rfl <;> obtain ⟨_, -, -, rfl⟩ := copyToChecks_ok h <;> rfl

/-- Settles O30: hands moves only in a commit, and only where the commit's shape lets the instruction write it. -/
theorem handsChangesOnlyBySuccessfulWriters : Obligations.HandsChangesOnlyBySuccessfulWriters := by
  intro i s t hrun h
  rcases exec_next_cases h with ⟨c, hc, hshape, rfl⟩ | ⟨e, -, rfl⟩ | ⟨rfl, -, rfl | rfl⟩
  · refine ⟨fun hne => ⟨hrun, ?_⟩, fun p hi _ => copyTo_commit_hands hi hc⟩
    have hwrites : i.writesHands = true := by
      by_contra hw
      exact hne (hshape.hands (by simpa using hw))
    refine ⟨?_, fun k => ⟨?_, ?_, ?_⟩⟩ <;> rintro rfl <;> cases hwrites
  · simp
  · simp
  · simp

/-- Settles O31: only a commit moves a queue, and its shape names the instruction that does. -/
theorem queuesMoveOnlyByTheirInstruction : Obligations.QueuesMoveOnlyByTheirInstruction := by
  intro i s t hrun h
  rcases exec_next_cases h with ⟨c, -, hshape, rfl⟩ | ⟨e, -, rfl⟩ | ⟨rfl, -, rfl | rfl⟩
  · constructor
    · rcases hshape.output with ⟨hout, hi⟩ | ⟨rfl, hout, -⟩
      · exact .inr ⟨by simp [hout], fun h => absurd h hi⟩
      · exact .inl ⟨rfl, hrun, by simp [hout]⟩
    · by_cases hi : i = .inbox
      · exact .inl ⟨hi, hrun, by simp [hshape.takes.1.mpr hi]⟩
      · exact .inr ⟨by simp [mt hshape.takes.1.mp hi], fun h => absurd h hi⟩
  · simp
  · simp
  · simp

/-- Settles O32: a commit writes no status field, and no other answer raises icount. -/
theorem instructionsLeaveTheirSurroundings : Obligations.InstructionsLeaveTheirSurroundings := by
  intro i s t h
  rcases exec_next_cases h with ⟨c, -, -, rfl⟩ | ⟨e, -, rfl⟩ | ⟨rfl, -, rfl | rfl⟩
  · exact ⟨⟨rfl, rfl, rfl, rfl⟩, rfl, fun _ => ⟨rfl, rfl⟩⟩
  · exact ⟨⟨rfl, rfl, rfl, rfl⟩, rfl, by simp⟩
  · exact ⟨⟨rfl, rfl, rfl, rfl⟩, rfl, by simp⟩
  · exact ⟨⟨rfl, rfl, rfl, rfl⟩, rfl, by simp⟩

/-! ## The errors an instruction can raise -/

theorem invalidValue_notMem_addressCodes (m : AddrMode) : ErrorKind.invalidValue ∉ addressCodes m := by
  cases m <;> decide

theorem jumpIfChecks_error {cond : Int → Bool} {t : Nat} {s : State} {h : Halt}
    (hc : jumpIfChecks cond t s = .error h) : h = .raise .badJumpConditionType := by
  rcases Checked.bind_error.mp hc with hv | ⟨n, -, hc⟩
  · exact (numberOr_error_iff.mp hv).2
  · cases hc

/-- Checks whose errors all satisfy P raise no error that does not. -/
theorem ne_error_raise {x : Checked Commit} {P : ErrorKind → Prop} {e : ErrorKind}
    (hx : ∀ {h}, x = .error h → ∃ e, h = .raise e ∧ P e) (he : ¬ P e) : x ≠ .error (.raise e) := by
  intro h
  obtain ⟨e', heq, hP⟩ := hx h
  cases heq
  exact he hP

/-- No instruction raises InvalidValue: it is the loader's alone (60_exceptions.md R182). -/
theorem checksOf_ne_raise_invalidValue (s : State) (i : Instr) : checksOf s i ≠ .error (.raise .invalidValue) := by
  have address := invalidValue_notMem_addressCodes
  cases i with
  | inbox =>
    intro h
    simp only [checksOf, inboxChecks] at h
    split at h
    · cases h
    · split at h <;> cases h
  | outbox =>
    intro h
    rcases Checked.bind_error.mp h with hv | ⟨v, -, hc⟩
    · cases (nonEmptyOr_error_iff.mp hv).2
    · cases hc
  | copyFrom p | copyFromIndirect p => exact ne_error_raise copyFromChecks_error (by simp [address])
  | copyTo p | copyToIndirect p => exact ne_error_raise copyToChecks_error (by simp [address])
  | add p | addIndirect p => exact ne_error_raise addChecks_error (by simp [address])
  | sub p | subIndirect p => exact ne_error_raise subChecks_error (by simp [address])
  | bumpUp p | bumpUpIndirect p | bumpDown p | bumpDownIndirect p =>
    exact ne_error_raise bumpChecks_error (by simp [address])
  | jump t => exact fun h => by cases h
  | jumpIfZero t | jumpIfNegative t => exact fun h => by cases jumpIfChecks_error h

/-! ## A move of the engine completes an instruction, or keeps the data -/

@[simp] theorem State.wake_runState (s : State) (v : Value) : (s.wake v).runState = .running := rfl
@[simp] theorem State.wake_hostInputs (s : State) (v : Value) : (s.wake v).hostInputs = s.hostInputs := rfl

theorem SameData.refl (s : State) : SameData s s := ⟨rfl, rfl, rfl, rfl, rfl, rfl⟩

/-- An INBOX that finds an input takes it. -/
theorem inboxChecks_of_nextInput {s : State} {v : Value} (h : s.nextInput = some v) :
    checksOf s .inbox = .ok (s.takeInput v) := by
  simp [checksOf, inboxChecks, h]

/-- The engine goes from s to t by completing the instruction i with the commit c: from RUNNING past the loop-entry
checks, or the INBOX of a suspended run (41_io.md R132). -/
structure Completes (s t : State) (i : Instr) (c : Commit) : Prop where
  wellFormed : i.wellFormed = true
  shape : CommitShape i s c
  data : SameData (s.commit c) t
  running : t.runState = .running
  ready : (s.runState = .running ∧ s.icount.toNat < 1000 ∧ ∃ w, s.fetch = some w) ∨ s.runState = .suspended

/-- A run woken with v completes its INBOX, whatever else the step leaves of t. -/
theorem completes_inbox {s t : State} {v : Value} (hr : s.runState = .suspended) (hn : s.nextInput = some v)
    (hdata : SameData (s.commit (s.takeInput v)) t) (ht : t.runState = .running) :
    Completes s t .inbox (s.takeInput v) :=
  ⟨rfl, checksOf_shape (inboxChecks_of_nextInput hn), hdata, ht, .inr hr⟩

/-- Every move completes an instruction and leaves the run RUNNING, or keeps the data and leaves it not RUNNING. -/
theorem EngineMove.completes_or_keeps {cancel : Bool} {s t : State} (h : EngineMove cancel s t) :
    (∃ i c, Completes s t i c) ∨ (t.runState ≠ .running ∧ SameData s t) := by
  cases h with
  | idle h =>
    refine .inr ⟨fun hr => ?_, SameData.refl s⟩
    simp [hr, RunState.terminal] at h
  | commit hr hb hw hi _ hshape =>
    exact .inl ⟨_, _, decode_wellFormed hi, hshape, SameData.refl _, hr, .inl ⟨hr, hb, _, hw⟩⟩
  | woken hr hn => exact .inl ⟨_, _, completes_inbox hr hn ⟨rfl, rfl, rfl, rfl, rfl, rfl⟩ rfl⟩
  | raceWoken hr hn => exact .inl ⟨_, _, completes_inbox hr hn ⟨rfl, rfl, rfl, rfl, rfl, rfl⟩ rfl⟩
  | _ => exact .inr ⟨by simp, rfl, rfl, rfl, rfl, rfl, rfl⟩

/-- No move of the engine writes the host's inputs. -/
theorem EngineMove.hostInputs_eq {cancel : Bool} {s t : State} (h : EngineMove cancel s t) :
    t.hostInputs = s.hostInputs := by
  cases h <;> simp

/-- An instruction completes below the budget and inside the program. -/
theorem Completes.bounds {s t : State} {i : Instr} {c : Commit} (h : Completes s t i c)
    (hs : s.runState = .suspended → SuspendedAtInbox s) :
    s.icount.toNat < 1000 ∧ s.pc.toNat < s.launch.prog.length := by
  have inside {w : InsnWord} (hw : s.fetch = some w) : s.pc.toNat < s.launch.prog.length :=
    (List.getElem?_eq_some_iff.mp hw).1
  rcases h.ready with ⟨-, hb, w, hw⟩ | hr
  · exact ⟨hb, inside hw⟩
  · obtain ⟨-, hb, w, hw, -⟩ := hs hr
    exact ⟨hb, inside hw⟩

/-- Completing an instruction raises icount by 1, without a wrap. -/
theorem Completes.icount {s t : State} {i : Instr} {c : Commit} (h : Completes s t i c)
    (hb : s.icount.toNat < 1000) : t.icount.toNat = s.icount.toNat + 1 := by
  rw [h.data.icount, State.commit_icount, BitVec.toNat_add]
  simp
  omega

/-- An instruction completes only in a run that is not over. -/
theorem Completes.not_terminal {s t : State} {i : Instr} {c : Commit} (h : Completes s t i c) :
    s.runState.terminal = false := by
  rcases h.ready with ⟨hr, -, -⟩ | hr <;> rw [hr] <;> rfl

theorem SuspendedAtInbox.arrive {s : State} (h : SuspendedAtInbox s) : SuspendedAtInbox s.arrive :=
  ⟨h.interactive, h.budget, h.atInbox⟩

theorem CountersBounded.arrive {s : State} (h : CountersBounded s) : CountersBounded s.arrive where
  launch := ⟨h.launch.memLen, h.launch.progLen⟩
  icount := h.icount
  cursorCount := h.cursorCount
  outCount := h.outCount
  pc := h.pc
  suspended hs := (h.suspended hs).arrive
  cursorInput := by
    obtain ⟨l, hl⟩ := s.exists_inqAfterPushes_eq_append
    have := h.cursorInput
    simp only [State.arrive_inCursor, State.arrive_inq, hl, List.length_append]
    omega

/-- The next state of a step: RESET's, or one of the engine's moves once the host's pushes have arrived. -/
theorem step_next_cases {s t : State} (h : step s = .next t) :
    (s.hostTick.reset = true ∧ t = s.arrive.restart) ∨
      (s.hostTick.reset = false ∧ EngineMove s.hostTick.cancel s.arrive t) := by
  obtain ⟨t', ht, hcases⟩ := step_cases s
  obtain rfl : t' = t := by simpa [ht] using h
  exact hcases

/-- Settles O26: the move completes an instruction below the budget, or keeps icount. -/
theorem stepCountsExactlyTheCommits : Obligations.StepCountsExactlyTheCommits := by
  intro s t hbounded hreset h
  obtain ⟨hr, -⟩ | ⟨-, hmove⟩ := step_next_cases h
  · simp [hreset] at hr
  rcases hmove.completes_or_keeps with ⟨i, c, hc⟩ | ⟨hr, hdata⟩
  · obtain ⟨hbudget, -⟩ := hc.bounds hbounded.arrive.suspended
    exact .inl ⟨hc.not_terminal, hc.running, hc.icount hbudget⟩
  · exact .inr ⟨hr, hdata.icount⟩

/-! ## Every Value stays legal -/

theorem Value.number_legal {n : Int} (hlo : -999 ≤ n) (hhi : n ≤ 999) : (Value.number n).legal = true := by
  simp [Value.legal, hlo, hhi]

/-- A cell listed after a commit is the one it wrote, or was listed before. -/
theorem Memory.mem_commit {m : Memory} {w : Option Cell} {x : Cell} (h : x ∈ m.commit w) : w = some x ∨ x ∈ m := by
  cases w with
  | none => exact .inr h
  | some c => exact (Memory.mem_write m c.1 c.2 x h).imp (fun h => congrArg some h.1.symm) id

section
variable {s : State} {i : Instr} {c : Commit} (hv : ValuesLegal s) (hshape : CommitShape i s c)
include hv hshape

theorem ValuesLegal.commit_hands : c.hands.legal = true := by
  rcases hshape.handsFrom with h | h | h | ⟨n, h⟩ | ⟨n, hlo, hhi, h⟩
  · rw [h]; rfl
  · rw [h]; exact hv.hands
  · exact hv.inq _ (List.mem_of_getElem? h)
  · rw [h]; exact hv.cell n
  · rw [h]; exact Value.number_legal hlo hhi

theorem ValuesLegal.commit_mem : ∀ x ∈ s.mem.commit c.cell, x.2.legal = true := by
  intro x hx
  rcases Memory.mem_commit hx with hx | hx
  · obtain ⟨-, -, h | ⟨n, hlo, hhi, h⟩, -⟩ := hshape.cell x hx
    · rw [h]; exact hv.hands
    · rw [h]; exact Value.number_legal hlo hhi
  · exact hv.mem x hx

theorem ValuesLegal.commit_outq : ∀ v ∈ s.outq ++ c.output.toList, v.legal = true := by
  intro v h
  rcases List.mem_append.mp h with h | h
  · exact hv.outq v h
  · rcases hshape.output with ⟨hout, -⟩ | ⟨-, hout, -⟩
    · simp [hout] at h
    · obtain rfl : v = s.hands := by simpa [hout] using h
      exact hv.hands

end

theorem ValuesLegal.arrive {s : State} (hv : ValuesLegal s) : ValuesLegal s.arrive where
  hands := hv.hands
  mem := hv.mem
  outq := hv.outq
  room := hv.room
  pushes h hh := hv.pushes h (List.mem_of_mem_tail hh)
  inq v h := by
    have pushed (hp : v ∈ s.hostTick.pushes) : v.legal = true := by
      rcases s.hostTick_mem with ht | ht
      · simp [ht, HostTick.idle] at hp
      · exact hv.pushes _ ht v hp
    rw [State.arrive_inq, State.inqAfterPushes] at h
    split at h
    · exact (List.mem_append.mp h).elim (hv.inq v) pushed
    · exact hv.inq v h

theorem ValuesLegal.restart {s : State} (hv : ValuesLegal s) : ValuesLegal s.restart :=
  ⟨rfl, hv.room, hv.inq, by simp, hv.room, hv.pushes⟩

theorem EngineMove.valuesLegal {cancel : Bool} {s t : State} (hmove : EngineMove cancel s t) (hv : ValuesLegal s) :
    ValuesLegal t := by
  have hinq := hmove.inq_eq ▸ hv.inq
  have hroom := hmove.launch_eq ▸ hv.room
  have hpushes := hmove.hostInputs_eq ▸ hv.pushes
  rcases hmove.completes_or_keeps with ⟨i, c, hc⟩ | ⟨-, hdata⟩
  · obtain ⟨hhands, hmem, -, houtq, -, -⟩ := hc.data
    exact ⟨hhands ▸ hv.commit_hands hc.shape, hmem ▸ hv.commit_mem hc.shape, hinq, houtq ▸ hv.commit_outq hc.shape,
      hroom, hpushes⟩
  · exact ⟨hdata.hands ▸ hv.hands, hdata.mem ▸ hv.mem, hinq, hdata.outq ▸ hv.outq, hroom, hpushes⟩

/-- What the pushes, RESET and every move of the engine keep, every step keeps. -/
theorem step_keeps {P : State → Prop} (harrive : ∀ s, P s → P s.arrive) (hrestart : ∀ s, P s → P s.restart)
    (hmove : ∀ cancel s t, EngineMove cancel s t → P s → P t) {s t : State} (hs : P s) (h : step s = .next t) :
    P t := by
  rcases step_next_cases h with ⟨-, rfl⟩ | ⟨-, hm⟩
  · exact hrestart _ (harrive s hs)
  · exact hmove _ _ _ hm (harrive s hs)

/-- Settles O42: the pushes, RESET and every move of the engine keep the Values legal. -/
theorem everyValueStaysLegal : Obligations.EveryValueStaysLegal := fun _ _ =>
  step_keeps (P := ValuesLegal) (fun _ => ValuesLegal.arrive) (fun _ => ValuesLegal.restart)
    fun _ _ _ => EngineMove.valuesLegal

/-! ## The bank keeps its form -/

theorem BankOk.arrive {s : State} (hb : BankOk s) : BankOk s.arrive := ⟨hb.memWf, hb.memIn, hb.roomWf, hb.roomIn⟩

theorem BankOk.restart {s : State} (hb : BankOk s) : BankOk s.restart := ⟨hb.roomWf, hb.roomIn, hb.roomWf, hb.roomIn⟩

/-- A commit writes a cell below MEM_LEN or none. -/
theorem BankOk.commit_memIn {s : State} {i : Instr} {c : Commit} (hb : BankOk s) (hshape : CommitShape i s c) :
    ∀ x ∈ s.mem.commit c.cell, x.1 < s.launch.memLen := by
  intro x hx
  rcases Memory.mem_commit hx with hx | hx
  · exact (hshape.cell x hx).2.1
  · exact hb.memIn x hx

theorem EngineMove.bankOk {cancel : Bool} {s t : State} (hmove : EngineMove cancel s t) (hb : BankOk s) :
    BankOk t := by
  obtain ⟨hwf, hin⟩ : t.mem.wf ∧ ∀ x ∈ t.mem, x.1 < s.launch.memLen := by
    rcases hmove.completes_or_keeps with ⟨i, c, hc⟩ | ⟨-, hdata⟩
    · rw [hc.data.mem]
      exact ⟨Memory.commit_wf s.mem hb.memWf c.cell, hb.commit_memIn hc.shape⟩
    · rw [hdata.mem]
      exact ⟨hb.memWf, hb.memIn⟩
  exact ⟨hwf, hmove.launch_eq ▸ hin, hmove.launch_eq ▸ hb.roomWf, hmove.launch_eq ▸ hb.roomIn⟩

/-! ## The counters stay in their bounds -/

theorem LaunchOk.countersBounded_restart {s : State} (h : LaunchOk s) : CountersBounded s.restart :=
  ⟨⟨h.memLen, h.progLen⟩, by simp, by simp, by simp, by simp, by simp, by simp⟩

/-- A run that a move leaves SUSPENDED stands at its INBOX. -/
theorem EngineMove.suspendedAtInbox {cancel : Bool} {s t : State} (hmove : EngineMove cancel s t)
    (hs : s.runState = .suspended → SuspendedAtInbox s) (ht : t.runState = .suspended) : SuspendedAtInbox t := by
  cases hmove with
  | idle => exact hs ht
  | suspended _ hb hw hi _ hm => exact ⟨hm, hb, _, hw, hi⟩
  | commit hr => simp [hr] at ht
  | _ => simp at ht

/-- A program index below 8192 and a legal jump target lead to a pc of at most 8192 (10_state.md R28). -/
theorem CommitShape.nextPc_le {s : State} {i : Instr} {c : Commit} (hshape : CommitShape i s c)
    (hi : i.wellFormed = true) (hpc : s.pc.toNat < 8192) : c.nextPc.toNat ≤ 8192 := by
  rcases hshape.nextPc with h | ⟨t, ht, -, h⟩
  · rw [h, BitVec.toNat_add]
    simp
    omega
  · have hlegal : t < 8192 := by simpa [Instr.wellFormed_eq, ht, Value.legal] using hi
    rw [h, BitVec.toNat_ofNat]
    omega

/-- A commit that takes an input finds the cursor below the queue's length, and moves it by 1; no other moves it. -/
theorem CommitShape.inCursor_cases {s : State} {i : Instr} {c : Commit} (hshape : CommitShape i s c)
    (hcur : s.inCursor.toNat < 1000) :
    (s.commit c).inCursor.toNat = s.inCursor.toNat ∨
      (s.inCursor.toNat < s.inq.length ∧ (s.commit c).inCursor.toNat = s.inCursor.toNat + 1) := by
  by_cases hi : i = .inbox
  · refine .inr ⟨(List.getElem?_eq_some_iff.mp (hshape.takes.2 hi)).1, ?_⟩
    rw [State.commit_inCursor, if_pos (hshape.takes.1.mpr hi), BitVec.toNat_add]
    simp
    omega
  · exact .inl (congrArg _ (if_neg (mt hshape.takes.1.mp hi)))

/-- A commit appends one Value to outq at most. -/
theorem CommitShape.outq_length_le {s : State} {i : Instr} {c : Commit} (hshape : CommitShape i s c) :
    (s.commit c).outq.length ≤ s.outq.length + 1 := by
  rcases hshape.output with ⟨hout, -⟩ | ⟨-, hout, -⟩ <;> simp [hout]

theorem EngineMove.countersBounded {cancel : Bool} {s t : State} (hmove : EngineMove cancel s t)
    (h : CountersBounded s) : CountersBounded t := by
  have hlaunch : LaunchOk t := by
    obtain ⟨hmem, hprog⟩ := h.launch
    constructor <;> rw [hmove.launch_eq] <;> assumption
  have hsuspended := hmove.suspendedAtInbox h.suspended
  have hinput : s.inCursor.toNat ≤ t.inq.length := hmove.inq_eq ▸ h.cursorInput
  have hcount := h.cursorCount
  have hout := h.outCount
  rcases hmove.completes_or_keeps with ⟨i, c, hc⟩ | ⟨-, hdata⟩
  · obtain ⟨hbudget, hinside⟩ := hc.bounds h.suspended
    have hicount' := hc.icount hbudget
    have hout' := hc.data.outq ▸ hc.shape.outq_length_le
    have hpc' : t.pc.toNat ≤ 8192 :=
      hc.data.pc ▸ hc.shape.nextPc_le hc.wellFormed (hinside.trans_le h.launch.progLen)
    have hcursor := hc.shape.inCursor_cases (by omega)
    rw [← hc.data.inCursor, ← hmove.inq_eq] at hcursor
    refine ⟨hlaunch, hicount' ▸ hbudget, ?_, ?_, by omega, hpc', hsuspended⟩ <;>
      rcases hcursor with h | ⟨hlt, h⟩ <;> omega
  · obtain ⟨-, -, hcursor, houtq, hpc, hicount⟩ := hdata
    rw [← hcursor] at hinput
    refine ⟨hlaunch, hicount ▸ h.icount, hinput, ?_, ?_, hpc ▸ h.pc, hsuspended⟩
    · rwa [hcursor, hicount]
    · rwa [houtq, hicount]

/-- Where the counters are in their bounds, out_count is the length of outq. -/
theorem CountersBounded.outCount_eq {s : State} (h : CountersBounded s) : s.outCount.toNat = s.outq.length := by
  have hout := h.outCount
  have hicount := h.icount
  rw [State.outCount, BitVec.toNat_ofNat]
  omega

/-! ## The status fields fit run_state -/

/-- A run that has not ended in an error or a fault has neither kind (10_state.md R33, R34). -/
theorem StatusCoherent.kinds_none {s : State} (h : StatusCoherent s) (he : s.runState ≠ .haltedOnError)
    (hf : s.runState ≠ .haltedOnInternalFault) : s.errKind = none ∧ s.faultKind = none :=
  ⟨by_contra fun hk => he (h.errKind.mp hk), by_contra fun hk => hf (h.faultKind.mp hk)⟩

/-- The coherence of a state with neither kind: what is left is what its run_state tells of the mode and the input. -/
theorem StatusCoherent.of_kinds_none {s : State} (hk : s.errKind = none ∧ s.faultKind = none)
    (he : s.runState ≠ .haltedOnError) (hf : s.runState ≠ .haltedOnInternalFault)
    (hwaits : s.runState = .suspended ∨ s.runState = .cancelled → s.launch.interactive = true)
    (hnormal : s.runState = .haltedNormally → s.launch.interactive = false ∧ s.inq.length ≤ s.inCursor.toNat) :
    StatusCoherent s where
  errKind := by simp [hk.1, he]
  faultKind := by simp [hk.2, hf]
  loaderOnly := by simp [hk.1]
  bankIndex := by simp [hk.2]
  suspended h := hwaits (.inl h)
  cancelled h := hwaits (.inr h)
  normal := hnormal

theorem StatusCoherent.raise {s : State} (hk : s.faultKind = none) {e : ErrorKind} (he : e ≠ .invalidValue) :
    StatusCoherent (s.raise e) := by
  constructor <;> simp [hk, he]

theorem StatusCoherent.internalFault {s : State} (he : s.errKind = none) {k : FaultKind} (hk : k ≠ .bankIndex) :
    StatusCoherent (s.internalFault k) := by
  constructor <;> simp [he, hk]

theorem StatusCoherent.restart (s : State) : StatusCoherent s.restart := by
  apply StatusCoherent.of_kinds_none <;> simp

theorem StatusCoherent.arrive {s : State} (h : StatusCoherent s) : StatusCoherent s.arrive where
  errKind := h.errKind
  faultKind := h.faultKind
  loaderOnly := h.loaderOnly
  bankIndex := h.bankIndex
  suspended := h.suspended
  cancelled := h.cancelled
  normal hr := by
    obtain ⟨hm, hlen⟩ := h.normal hr
    refine ⟨hm, ?_⟩
    rwa [State.arrive_inq, State.inqAfterPushes_of_batch hm]

/-- The input that INBOX finds exhausted is all taken (20_memory.md R61). -/
theorem State.length_le_inCursor_of_nextInput_none {s : State} (h : s.nextInput = none) :
    s.inq.length ≤ s.inCursor.toNat := List.getElem?_eq_none_iff.mp h

theorem EngineMove.statusCoherent {cancel : Bool} {s t : State} (hmove : EngineMove cancel s t)
    (h : StatusCoherent s) : StatusCoherent t := by
  have running (hr : s.runState = .running) := h.kinds_none (by simp [hr]) (by simp [hr])
  have suspended (hr : s.runState = .suspended) := h.kinds_none (by simp [hr]) (by simp [hr])
  cases hmove with
  | idle => exact h
  | budget hr => exact .of_kinds_none (running hr) (by simp) (by simp) (by simp) (by simp)
  | pcOutOfRange hr => exact .internalFault (running hr).1 (by simp)
  | illegal hr => exact .internalFault (running hr).1 (by simp)
  | commit hr => exact .of_kinds_none (running hr) (by simp [hr]) (by simp [hr]) (by simp [hr]) (by simp [hr])
  | raised hr _ _ _ hc =>
    refine .raise (running hr).2 ?_
    rintro rfl
    exact checksOf_ne_raise_invalidValue s _ hc
  | halted hr _ _ _ hn hm =>
    exact .of_kinds_none (running hr) (by simp) (by simp) (by simp) fun _ =>
      ⟨hm, State.length_le_inCursor_of_nextInput_none hn⟩
  | suspended hr _ _ _ _ hm => exact .of_kinds_none (running hr) (by simp) (by simp) (fun _ => hm) (by simp)
  | woken hr => exact .of_kinds_none (suspended hr) (by simp) (by simp) (by simp) (by simp)
  | raceWoken hr => exact .of_kinds_none (suspended hr) (by simp) (by simp) (by simp) (by simp)
  | cancelled hr => exact .of_kinds_none (suspended hr) (by simp) (by simp) (fun _ => h.suspended hr) (by simp)
  | raceCancelled hr => exact .of_kinds_none (suspended hr) (by simp) (by simp) (fun _ => h.suspended hr) (by simp)

/-! ## The invariants -/

/-- RESET of a state that meets the launch duties gives the invariants. -/
theorem inv_restart {s : State} (hv : ValuesLegal s) (hb : BankOk s) (hl : LaunchOk s) : Inv s.restart :=
  ⟨hv.restart, hb.restart, hl.countersBounded_restart, StatusCoherent.restart s⟩

theorem Inv.arrive {s : State} (h : Inv s) : Inv s.arrive :=
  ⟨h.values.arrive, h.bank.arrive, h.counters.arrive, h.status.arrive⟩

theorem Inv.restart {s : State} (h : Inv s) : Inv s.restart := inv_restart h.values h.bank h.counters.launch

theorem EngineMove.inv {cancel : Bool} {s t : State} (hmove : EngineMove cancel s t) (h : Inv s) : Inv t :=
  ⟨hmove.valuesLegal h.values, hmove.bankOk h.bank, hmove.countersBounded h.counters, hmove.statusCoherent h.status⟩

/-- Settles O39: each part of the invariants holds after RESET and is kept by the pushes and by every move. -/
theorem invariantsHoldInEveryReachableState : Obligations.InvariantsHoldInEveryReachableState := by
  refine ⟨fun s => inv_restart, fun s t hs h => ⟨?_, ?_⟩, fun s h => h.counters.outCount_eq⟩
  · exact step_keeps (P := Inv) (fun _ => Inv.arrive) (fun _ => Inv.restart) (fun _ _ _ => EngineMove.inv) hs h
  · rw [(step_launch_inq h).1]

/-- Settles O40: State.reset is a RESET of itself, and it meets the launch duties. -/
theorem resetMeetsTheInvariants : Obligations.ResetMeetsTheInvariants := by
  have hv : ValuesLegal State.reset := by constructor <;> simp [State.reset, Launch.blank, Value.legal]
  have hb : BankOk State.reset := by constructor <;> simp [State.reset, Launch.blank, Memory.wf]
  have hl : LaunchOk State.reset := by constructor <;> simp [State.reset, Launch.blank]
  exact inv_restart hv hb hl

/-! ## RESET -/

/-- Settles O1: a step with RESET is RESET of the state the pushes left. -/
theorem resetRestoresEveryPieceOfState : Obligations.ResetRestoresEveryPieceOfState :=
  fun _ h => step_of_reset h

/-- Settles O2: each field of State.reset, read off. -/
theorem resetStateHoldsTheSpecsValues : Obligations.ResetStateHoldsTheSpecsValues :=
  ⟨rfl, rfl, rfl, rfl, rfl, rfl, rfl, rfl, rfl, fun _ => rfl⟩

/-! ## The status map -/

theorem ErrorKind.code_ne_zero (e : ErrorKind) : e.code ≠ 0 := by cases e <;> decide
theorem FaultKind.code_ne_zero (k : FaultKind) : k.code ≠ 0 := by cases k <;> decide

/-- The field err_kind is 0 exactly when there is no error (10_state.md R33). -/
theorem State.errCode_eq_zero_iff (s : State) : s.errCode = 0 ↔ s.errKind = none := by
  unfold State.errCode
  cases s.errKind with
  | none => simp
  | some e => simpa using e.code_ne_zero

/-- The field fault_kind is 0 exactly when there is no internal fault (10_state.md R34). -/
theorem State.faultCode_eq_zero_iff (s : State) : s.faultCode = 0 ↔ s.faultKind = none := by
  unfold State.faultCode
  cases s.faultKind with
  | none => simp
  | some k => simpa using k.code_ne_zero

/-- A register shown in a wider word, with zeros above it, reads as the same number. -/
theorem toNat_zero_append (n : Nat) {w : Nat} (x : BitVec w) : (0#n ++ x).toNat = x.toNat := by
  rw [BitVec.toNat_append]
  simp

/-- A length register, 14 bits wide, shows a length of at most 8192 in full. -/
theorem toNat_zero_append_ofNat_14 {len : Nat} (h : len ≤ 8192) : (0#18 ++ BitVec.ofNat 14 len).toNat = len := by
  rw [toNat_zero_append, BitVec.toNat_ofNat]
  omega

section
variable {b : BitVec 1} {f : BitVec 2} {e : BitVec 4} {r : BitVec 3}

/-- run_state, bits [2:0] of a word laid out as STATUS is. -/
theorem statusWord_runState : (0#22 ++ (b ++ (f ++ (e ++ r)))).extractLsb' 0 3 = r := by
  iterate 3 rw [BitVec.extractLsb'_append_eq_of_add_le (by decide)]
  rw [BitVec.extractLsb'_append_eq_right]

/-- err_kind, bits [6:3]. -/
theorem statusWord_errKind : (0#22 ++ (b ++ (f ++ (e ++ r)))).extractLsb' 3 4 = e := by
  iterate 3 rw [BitVec.extractLsb'_append_eq_of_add_le (by decide)]
  rw [BitVec.extractLsb'_append_eq_left]

/-- fault_kind, bits [8:7]. -/
theorem statusWord_faultKind : (0#22 ++ (b ++ (f ++ (e ++ r)))).extractLsb' 7 2 = f := by
  iterate 2 rw [BitVec.extractLsb'_append_eq_of_add_le (by decide)]
  rw [BitVec.extractLsb'_append_eq_left]

/-- INTERACTIVE, bit 9. -/
theorem statusWord_interactive : (0#22 ++ (b ++ (f ++ (e ++ r)))).getLsbD 9 = b.getLsbD 0 := by
  rw [BitVec.getLsbD_append, if_pos (by decide), BitVec.getLsbD_append, if_neg (by decide)]

end

/-- Settles O57: each field is read off the layout of its register, and no write reaches a register. -/
theorem statusMapFields : Obligations.StatusMapFields := fun s =>
  ⟨⟨statusWord_runState, statusWord_errKind, statusWord_faultKind,
      statusWord_interactive.trans (by simp), BitVec.extractLsb'_append_eq_left⟩,
    ⟨BitVec.extractLsb'_append_eq_right, BitVec.extractLsb'_append_eq_left⟩,
    toNat_zero_append 16 s.icount, toNat_zero_append 16 s.inCursor,
    (toNat_zero_append 16 s.outCount).trans (BitVec.toNat_ofNat _ _), toNat_zero_append 16 (encodeValue s.hands),
    toNat_zero_append_ofNat_14, toNat_zero_append_ofNat_14, rfl, fun _ _ _ => rfl⟩

/-- Settles O58: the lists of codes are computed; no code of a kind is 0. -/
theorem statusCodes : Obligations.StatusCodes :=
  ⟨rfl, rfl, rfl, fun s => ⟨s.errCode_eq_zero_iff.symm, s.faultCode_eq_zero_iff.symm⟩⟩

end Sys2Proof.Machine
end

section
/-! PROOFS. 20_memory.md: the bank and its cells, the address validator, what an instruction reads and stores, the
output strobe, how each mode ends its input, and what of a run the host reads or reaches. -/

namespace Sys2Proof.Machine

/-! ## The address validator -/

/-- A parameter names a cell when it is an address kind whose payload is the cell's index (R57, R60(a)). -/
theorem namesCell_iff {s : State} {p : Value} {n : Nat} :
    NamesCell s p n ↔ isAddressKind p = true ∧ payload p = n ∧ n < s.launch.memLen := by
  cases p <;> simp [NamesCell, isAddressKind, payload]

theorem notAddress_iff {p : Value} : NotAddress p ↔ isAddressKind p = false := by
  cases p <;> simp [NotAddress, isAddressKind]

theorem outsideBank_iff {s : State} {p : Value} :
    OutsideBank s p ↔ isAddressKind p = true ∧ (payload p < 0 ∨ (s.launch.memLen : Int) ≤ payload p) := by
  cases p with
  | memoryAddress n =>
    have : ¬ (n : Int) < 0 := by omega
    simp [OutsideBank, isAddressKind, payload, this]
  | _ => simp [OutsideBank, isAddressKind, payload]

/-- A stage answers exactly the cell its parameter names. -/
theorem checkAddress_ok_iff_namesCell {bt oor : ErrorKind} {s : State} {p : Value} {n : Nat} :
    checkAddress bt oor s.launch.memLen p = .ok n ↔ NamesCell s p n :=
  checkAddress_ok_iff.trans namesCell_iff.symm

/-- A stage raises its type code exactly on no address, and its range code exactly on an address of no cell. -/
theorem checkAddress_raise_iff {bt oor : ErrorKind} {s : State} {p : Value} {e : ErrorKind} :
    checkAddress bt oor s.launch.memLen p = .error (.raise e) ↔
      (NotAddress p ∧ e = bt) ∨ (OutsideBank s p ∧ e = oor) := by
  rw [notAddress_iff, outsideBank_iff, checkAddress]
  split
  · simp [*, eq_comm]
  · split <;> simp [*, eq_comm]

theorem State.validateDirect_ok_iff {s : State} {p : Value} {i : Nat} :
    s.validateDirect p = .ok i ↔ NamesCell s p i := checkAddress_ok_iff_namesCell

theorem State.validateDirect_raise_iff {s : State} {p : Value} {e : ErrorKind} :
    s.validateDirect p = .error (.raise e) ↔ AddressError s .direct p e := by
  refine checkAddress_raise_iff.trans ⟨?_, ?_⟩
  · rintro (⟨h, rfl⟩ | ⟨h, rfl⟩)
    · exact .directType h
    · exact .directRange h
  · rintro (h | h)
    · exact .inl ⟨h, rfl⟩
    · exact .inr ⟨h, rfl⟩

/-- The outer stage of validate_indirect: the parameter, with the indirect codes (R58). -/
def State.outerStage (s : State) (p : Value) : Checked Nat :=
  checkAddress .invalidIndirectAddressType .indirectAddressOutOfRange s.launch.memLen p

theorem State.outerStage_ok_iff {s : State} {p : Value} {n : Nat} : s.outerStage p = .ok n ↔ NamesCell s p n :=
  checkAddress_ok_iff_namesCell

theorem State.outerStage_raise_iff {s : State} {p : Value} {e : ErrorKind} :
    s.outerStage p = .error (.raise e) ↔
      (NotAddress p ∧ e = .invalidIndirectAddressType) ∨ (OutsideBank s p ∧ e = .indirectAddressOutOfRange) :=
  checkAddress_raise_iff

/-- The outer stage names a cell, or raises a code. -/
theorem State.outerStage_cases (s : State) (p : Value) :
    (∃ n, NamesCell s p n) ∨ ∃ e, s.outerStage p = .error (.raise e) := by
  cases hc : s.outerStage p with
  | ok n => exact .inl ⟨n, State.outerStage_ok_iff.mp hc⟩
  | error h => rcases checkAddress_error hc with rfl | rfl <;> exact .inr ⟨_, rfl⟩

/-- Where the outer stage passes, validate_indirect validates the pointer as a direct address (R58). -/
theorem State.validateIndirect_of_namesCell {s : State} {p : Value} {n : Nat} (h : NamesCell s p n) :
    s.validateIndirect p = s.validateDirect (s.mem.read n) := by
  rw [State.validateIndirect, checkAddress_ok_iff_namesCell.mpr h, Checked.ok_bind, State.memRead_of_lt h.2,
    Checked.ok_bind]

/-- Where the outer stage fails, so does validate_indirect (R58). -/
theorem State.validateIndirect_of_outer_error {s : State} {p : Value} {h : Halt} (hc : s.outerStage p = .error h) :
    s.validateIndirect p = .error h :=
  Checked.bind_error.mpr (.inl hc)

theorem State.validateIndirect_ok_iff {s : State} {p : Value} {i : Nat} :
    s.validateIndirect p = .ok i ↔ ∃ n, NamesCell s p n ∧ NamesCell s (s.mem.read n) i := by
  constructor
  · intro h
    rcases s.outerStage_cases p with ⟨n, hn⟩ | ⟨e, he⟩
    · rw [State.validateIndirect_of_namesCell hn] at h
      exact ⟨n, hn, State.validateDirect_ok_iff.mp h⟩
    · simp [State.validateIndirect_of_outer_error he] at h
  · rintro ⟨n, hn, hi⟩
    rw [State.validateIndirect_of_namesCell hn]
    exact State.validateDirect_ok_iff.mpr hi

theorem State.validateIndirect_raise_iff {s : State} {p : Value} {e : ErrorKind} :
    s.validateIndirect p = .error (.raise e) ↔ AddressError s .indirect p e := by
  constructor
  · intro h
    rcases s.outerStage_cases p with ⟨n, hn⟩ | ⟨e', he⟩
    · rw [State.validateIndirect_of_namesCell hn, State.validateDirect_raise_iff] at h
      cases h with
      | directType h => exact .pointerType hn h
      | directRange h => exact .pointerRange hn h
    · obtain rfl : e' = e := by simpa [State.validateIndirect_of_outer_error he] using h
      rcases State.outerStage_raise_iff.mp he with ⟨hp, rfl⟩ | ⟨hp, rfl⟩
      · exact .indirectType hp
      · exact .indirectRange hp
  · intro h
    cases h with
    | indirectType h => exact State.validateIndirect_of_outer_error (State.outerStage_raise_iff.mpr (.inl ⟨h, rfl⟩))
    | indirectRange h => exact State.validateIndirect_of_outer_error (State.outerStage_raise_iff.mpr (.inr ⟨h, rfl⟩))
    | pointerType hn h =>
      rw [State.validateIndirect_of_namesCell hn, State.validateDirect_raise_iff]
      exact .directType h
    | pointerRange hn h =>
      rw [State.validateIndirect_of_namesCell hn, State.validateDirect_raise_iff]
      exact .directRange h

/-- Settles O21: each mode by the stages of its validator. -/
theorem validatorFollowsItsStages : Obligations.ValidatorFollowsItsStages := by
  intro s m p
  cases m with
  | direct => exact ⟨fun _ => State.validateDirect_ok_iff, fun _ => State.validateDirect_raise_iff⟩
  | indirect => exact ⟨fun _ => State.validateIndirect_ok_iff, fun _ => State.validateIndirect_raise_iff⟩

/-- Settles O22: the outer stage looks at the parameter and MEM_LEN only, and its failure is the answer. -/
theorem outerStageFailureReadsNoCell : Obligations.OuterStageFailureReadsNoCell := by
  intro s m p h
  obtain ⟨e, hc, he⟩ : ∃ e, s.outerStage p = .error (.raise e) ∧
      (e = .invalidIndirectAddressType ∨ e = .indirectAddressOutOfRange) := by
    rcases h with h | h
    · exact ⟨_, State.outerStage_raise_iff.mpr (.inl ⟨h, rfl⟩), .inl rfl⟩
    · exact ⟨_, State.outerStage_raise_iff.mpr (.inr ⟨h, rfl⟩), .inr rfl⟩
  have hc' : State.outerStage { s with mem := m } p = .error (.raise e) := hc
  rw [State.validateIndirect_of_outer_error hc, State.validateIndirect_of_outer_error hc']
  exact ⟨rfl, e, rfl, he⟩

/-! ## The bank -/

/-- Settles O24: the laws of a write to a bank in canonical form. -/
theorem bankReadsWhatWasWritten : Obligations.BankReadsWhatWasWritten := fun m i v hwf =>
  ⟨m.write_wf hwf i v, m.read_write_same hwf i v, fun j hj => m.read_write_ne i j v hj⟩

/-- Settles O41: the pushes, RESET and every move of the engine keep the form. -/
theorem bankKeepsItsForm : Obligations.BankKeepsItsForm := fun _ _ =>
  step_keeps (P := BankOk) (fun _ => BankOk.arrive) (fun _ => BankOk.restart) fun _ _ _ => EngineMove.bankOk

/-- An instruction leaves every cell that no storing validator answers at the state it runs in. -/
theorem exec_read_of_not_stored {i : Instr} {s t : State} {b : Nat} (h : exec i s = .next t)
    (hb : ∀ m p, i.storeAddress = some (m, p) → s.validate m p ≠ .ok b) : t.mem.read b = s.mem.read b := by
  rcases exec_next_cases h with ⟨c, -, hshape, rfl⟩ | ⟨e, -, rfl⟩ | ⟨-, -, rfl | rfl⟩
  · cases hcell : c.cell with
    | none => simp [hcell, Memory.commit]
    | some x =>
      obtain ⟨-, -, -, m, p, hi, hx⟩ := hshape.cell x hcell
      rw [State.commit_mem, hcell]
      refine Memory.read_write_ne s.mem x.1 b x.2 ?_
      rintro rfl
      exact hb m p hi hx
  · rfl
  · rfl
  · rfl

/-- Settles O29: in each clause no storing validator answers the cell. -/
theorem onlyTheNamedCellIsStoredTo : Obligations.OnlyTheNamedCellIsStoredTo := by
  refine ⟨fun i s t hi h a => ?_, fun i s t m p hi h => ⟨fun a ha b hb => ?_, fun x hx b => ?_⟩⟩ <;>
    refine exec_read_of_not_stored h fun m' p' hi' hv => ?_
  · simp [hi] at hi'
  · obtain ⟨rfl, rfl⟩ : m = m' ∧ p = p' := by simpa [hi] using hi'
    exact hb (by simpa [ha] using hv.symm)
  · obtain ⟨rfl, rfl⟩ : m = m' ∧ p = p' := by simpa [hi] using hi'
    simp [hx] at hv

/-- Settles O35: no instruction faults, and none raises InvalidValue. -/
theorem bankIndexAndInvalidValueAreUnreachable : Obligations.BankIndexAndInvalidValueAreUnreachable := by
  intro i s t h
  rcases exec_next_cases h with ⟨c, -, -, rfl⟩ | ⟨e, he, rfl⟩ | ⟨-, -, rfl | rfl⟩
  · exact ⟨id, id⟩
  · refine ⟨id, fun h => ?_⟩
    obtain rfl : e = .invalidValue := by simpa using h
    exact absurd he (checksOf_ne_raise_invalidValue s i)
  · exact ⟨id, id⟩
  · exact ⟨id, id⟩

/-! ## What an instruction reads -/

/-- Two chains of checks with the same first part are the same where their rests agree on what it answers. -/
theorem Checked.bind_congr {α β : Type} {x : Checked α} {f g : α → Checked β} (h : ∀ a, x = .ok a → f a = g a) :
    (x >>= f) = (x >>= g) := by
  cases x with
  | ok a => exact h a rfl
  | error => rfl

/-- In place of the bank of s, the bank m has the validator of a parameter answer the same, and the cell it answers
read the same. -/
structure SameOperand (s : State) (m : Memory) (mode : AddrMode) (p : Value) : Prop where
  validate : State.validate { s with mem := m } mode p = s.validate mode p
  read : ∀ i, s.validate mode p = .ok i → State.memRead { s with mem := m } i = s.memRead i

theorem memRead_congr {s : State} {m : Memory} {i : Nat} (h : m.read i = s.mem.read i) :
    State.memRead { s with mem := m } i = s.memRead i := by
  simp only [State.memRead, h]

/-- A direct operand is the same on banks that agree on the cell it names. -/
theorem sameOperand_direct {s : State} {m : Memory} {p : Value}
    (h : ∀ n, NamesCell s p n → m.read n = s.mem.read n) : SameOperand s m .direct p where
  validate := rfl
  read i hi := memRead_congr (h i (State.validateDirect_ok_iff.mp hi))

/-- An indirect operand is the same on banks that agree on the pointer cell it names and on the cell that one names. -/
theorem sameOperand_indirect {s : State} {m : Memory} {p : Value}
    (h : ∀ n, NamesCell s p n → m.read n = s.mem.read n)
    (hpointer : ∀ n k, NamesCell s p n → NamesCell s (s.mem.read n) k → m.read k = s.mem.read k) :
    SameOperand s m .indirect p where
  validate := Checked.bind_congr fun n hn => by
    rw [memRead_congr (h n (State.outerStage_ok_iff.mp hn))]
    rfl
  read i hi := by
    obtain ⟨n, hn, hk⟩ := State.validateIndirect_ok_iff.mp hi
    exact memRead_congr (hpointer n i hn hk)

namespace SameOperand

variable {s : State} {m : Memory} {mode : AddrMode} {p : Value} (h : SameOperand s m mode p)
include h

/-- Checks that validate the operand and go on with its cell are the same where what follows the read is. -/
theorem load_congr {α : Type} {f g : Nat → Value → Checked α} (hfg : ∀ i v, f i v = g i v) :
    (do let i ← State.validate { s with mem := m } mode p
        let v ← State.memRead { s with mem := m } i
        f i v) =
      (do let i ← s.validate mode p
          let v ← s.memRead i
          g i v) := by
  rw [h.validate]
  refine Checked.bind_congr fun i hi => ?_
  rw [h.read i hi]
  exact Checked.bind_congr fun v _ => hfg i v

theorem copyFromChecks_eq : copyFromChecks mode p { s with mem := m } = copyFromChecks mode p s :=
  h.load_congr fun _ _ => rfl

theorem copyToChecks_eq : copyToChecks mode p { s with mem := m } = copyToChecks mode p s := by
  unfold copyToChecks
  rw [h.validate]
  rfl

theorem addChecks_eq : addChecks mode p { s with mem := m } = addChecks mode p s :=
  Checked.bind_congr fun _ _ => h.load_congr fun _ _ => rfl

theorem subChecks_eq : subChecks mode p { s with mem := m } = subChecks mode p s :=
  Checked.bind_congr fun _ _ => h.load_congr fun _ _ => rfl

theorem bumpChecks_eq (d : Int) : bumpChecks d mode p { s with mem := m } = bumpChecks d mode p s :=
  h.load_congr fun _ _ => rfl

end SameOperand

/-- The checks of an instruction answer the same on banks that agree on its two cells. -/
theorem checksOf_eq_of_agree {i : Instr} {s : State} {m : Memory}
    (h : ∀ n, NamesCell s i.param n → m.read n = s.mem.read n ∧
      ∀ k, i.indirect = true → NamesCell s (s.mem.read n) k → m.read k = s.mem.read k) :
    checksOf { s with mem := m } i = checksOf s i := by
  have direct : SameOperand s m .direct i.param := sameOperand_direct fun n hn => (h n hn).1
  have indirect (hi : i.indirect = true) : SameOperand s m .indirect i.param :=
    sameOperand_indirect (fun n hn => (h n hn).1) fun n k hn hk => (h n hn).2 k hi hk
  cases i with
  | inbox | outbox | jump t | jumpIfZero t | jumpIfNegative t => rfl
  | copyFrom p => exact direct.copyFromChecks_eq
  | copyFromIndirect p => exact (indirect rfl).copyFromChecks_eq
  | copyTo p => exact direct.copyToChecks_eq
  | copyToIndirect p => exact (indirect rfl).copyToChecks_eq
  | add p => exact direct.addChecks_eq
  | addIndirect p => exact (indirect rfl).addChecks_eq
  | sub p => exact direct.subChecks_eq
  | subIndirect p => exact (indirect rfl).subChecks_eq
  | bumpUp p => exact direct.bumpChecks_eq 1
  | bumpUpIndirect p => exact (indirect rfl).bumpChecks_eq 1
  | bumpDown p => exact direct.bumpChecks_eq (-1)
  | bumpDownIndirect p => exact (indirect rfl).bumpChecks_eq (-1)

/-- What checks lead to depends on the bank in the bank alone. -/
theorem conclude_setMem (s : State) (m : Memory) (x : Checked Commit) :
    ∃ m', State.conclude { s with mem := m } x = { s.conclude x with mem := m' } := by
  cases x with
  | ok c => exact ⟨m.commit c.cell, rfl⟩
  | error h => cases h <;> exact ⟨m, rfl⟩

/-- Settles O25: the checks answer the same, and what they lead to differs in the bank alone. -/
theorem instructionReadsAtMostItsTwoCells : Obligations.InstructionReadsAtMostItsTwoCells := by
  intro i s u m hagree h
  obtain rfl : s.conclude (checksOf s i) = u := by simpa [exec_eq] using h
  obtain ⟨m', hm'⟩ := conclude_setMem s m (checksOf s i)
  refine ⟨m', ?_⟩
  rw [exec_eq, checksOf_eq_of_agree hagree, hm']

/-! ## The output strobe -/

/-- A move of the engine leaves outq, or is an OUTBOX that appends its hands. -/
theorem EngineMove.outq_cases {cancel : Bool} {s t : State} (h : EngineMove cancel s t) :
    t.outq = s.outq ∨ (t.outq = s.outq ++ [s.hands] ∧ s.hands ≠ .empty ∧ s.runState = .running ∧
      ∃ w, s.fetch = some w ∧ decode w = .ok .outbox) := by
  cases h with
  | commit hr _ hw hi _ hshape =>
    rcases hshape.output with ⟨hout, -⟩ | ⟨rfl, hout, hne⟩
    · exact .inl (by simp [hout])
    · exact .inr ⟨by simp [hout], hne, hr, _, hw, hi⟩
  | woken | raceWoken => exact .inl (List.append_nil _)
  | _ => exact .inl rfl

theorem outStrobe_of_append {s t : State} {l : List Value} (h : t.outq = s.outq ++ l) : outStrobe s t = l := by
  simp [outStrobe, h]

/-- Settles O36: the strobe carries what the move appends: nothing, or the hands of an OUTBOX. -/
theorem outputStrobeCarriesEachOutputOnce : Obligations.OutputStrobeCarriesEachOutputOnce := by
  intro s t hreset h
  rcases step_next_cases h with ⟨hr, -⟩ | ⟨-, hmove⟩
  · simp [hreset] at hr
  rcases hmove.outq_cases with hout | ⟨hout, houtbox⟩
  · have hout : t.outq = s.outq ++ [] := by simpa using hout
    rw [outStrobe_of_append hout]
    exact ⟨hout, fun h => absurd rfl h⟩
  · rw [outStrobe_of_append (s := s) hout]
    exact ⟨hout, fun _ => ⟨rfl, houtbox⟩⟩

/-! ## How each mode ends its input -/

/-- In interactive mode no move enters HALTED_NORMALLY (20_memory.md R62). -/
theorem EngineMove.ne_haltedNormally {cancel : Bool} {s t : State} (h : EngineMove cancel s t)
    (hm : s.launch.interactive = true) (hs : s.runState ≠ .haltedNormally) : t.runState ≠ .haltedNormally := by
  cases h with
  | idle => exact hs
  | commit hr => simp [hr]
  | halted _ _ _ _ _ hbatch => simp [hm] at hbatch
  | _ => simp

/-- In batch mode no move enters SUSPENDED, nor CANCELLED but from SUSPENDED (R61, 60_exceptions.md R191). -/
theorem EngineMove.ne_suspended_cancelled {cancel : Bool} {s t : State} (h : EngineMove cancel s t)
    (hm : s.launch.interactive = false) (hs : s.runState ≠ .suspended) (hc : s.runState ≠ .cancelled) :
    t.runState ≠ .suspended ∧ t.runState ≠ .cancelled := by
  cases h with
  | idle => exact ⟨hs, hc⟩
  | commit hr => simp [hr]
  | suspended _ _ _ _ _ hinteractive => simp [hm] at hinteractive
  | cancelled hr | raceCancelled hr => exact absurd hr hs
  | _ => simp

/-- Settles O37: RESET leads to RUNNING, and each move of the engine keeps to its mode. -/
theorem modeDecidesHowInputEnds : Obligations.ModeDecidesHowInputEnds := by
  intro s t h
  rcases step_next_cases h with ⟨-, rfl⟩ | ⟨-, hmove⟩
  · simp
  · exact ⟨hmove.ne_haltedNormally, hmove.ne_suspended_cancelled⟩

/-! ## A batch run and the host's schedule -/

/-- s with the host's inputs of another schedule to come. -/
def State.underSchedule (s : State) (hs : List HostTick) : State := { s with hostInputs := hs }

@[simp] theorem State.underSchedule_icount (s : State) (hs : List HostTick) :
    (s.underSchedule hs).icount = s.icount := rfl
@[simp] theorem State.underSchedule_fetch (s : State) (hs : List HostTick) :
    (s.underSchedule hs).fetch = s.fetch := rfl

/-- The schedule is no part of the core's state. -/
theorem SameCore.underSchedule (s : State) (hs : List HostTick) : SameCore s (s.underSchedule hs) :=
  ⟨rfl, rfl, rfl, rfl, rfl, rfl, rfl, rfl, rfl⟩

/-- What checks lead to leaves the host's inputs, and depends on them in nothing else. -/
theorem conclude_underSchedule (s : State) (hs : List HostTick) (x : Checked Commit) :
    (s.underSchedule hs).conclude x = (s.conclude x).underSchedule hs := by
  cases x with
  | ok c => rfl
  | error h => cases h <;> rfl

/-- An instruction neither reads nor writes the host's inputs. -/
theorem exec_underSchedule {i : Instr} {s t : State} (hs : List HostTick) (h : exec i s = .next t) :
    exec i (s.underSchedule hs) = .next (t.underSchedule hs) := by
  have checks : checksOf (s.underSchedule hs) i = checksOf s i := by cases i <;> rfl
  obtain rfl : s.conclude (checksOf s i) = t := by simpa [exec_eq] using h
  rw [exec_eq, checks, conclude_underSchedule]

/-- A step from RUNNING neither reads nor writes the host's inputs. -/
theorem runningStep_underSchedule {s t : State} (hs : List HostTick) (h : runningStep s = .next t) :
    runningStep (s.underSchedule hs) = .next (t.underSchedule hs) := by
  unfold runningStep at h ⊢
  rw [State.underSchedule_icount, State.underSchedule_fetch]
  split at h
  · rename_i hb
    cases h
    rw [if_pos hb]
    rfl
  · rename_i hb
    rw [if_neg hb]
    split at h
    · cases h
      rfl
    · unfold dispatchWord at h ⊢
      split at h
      · cases h
        rfl
      · exact exec_underSchedule hs h

/-- Outside SUSPENDED the engine reads neither CANCEL nor the host's inputs. -/
theorem engineStep_underSchedule {c : Bool} {s t : State} (c' : Bool) (hs : List HostTick)
    (hne : s.runState ≠ .suspended) (h : engineStep c s = .next t) :
    engineStep c' (s.underSchedule hs) = .next (t.underSchedule hs) := by
  have hruns : s.runState = .running ∨ s.runState.terminal = true := by
    cases hr : s.runState <;> simp [RunState.terminal, hr] at hne ⊢
  rcases hruns with hr | hr
  · rw [engineStep_running c hr] at h
    rw [engineStep_running (s := s.underSchedule hs) c' hr]
    exact runningStep_underSchedule hs h
  · rw [engineStep_terminal c hr] at h
    cases h
    exact engineStep_terminal (s := s.underSchedule hs) c' hr

theorem State.noReset.hostTick {s : State} (h : s.noReset) : s.hostTick.reset = false := by
  rcases s.hostTick_mem with ht | ht
  · rw [ht]; rfl
  · exact h _ ht

/-- In batch mode the host's tick leaves nothing behind (10_state.md R41). -/
theorem State.arrive_of_batch {s : State} (h : s.launch.interactive = false) :
    s.arrive = s.underSchedule s.hostInputs.tail := by
  rw [State.arrive, State.inqAfterPushes_of_batch h]
  rfl

/-- A batch run outside SUSPENDED takes the same step under any two schedules without a RESET. -/
theorem step_underSchedule {s t : State} {hs : List HostTick} (hm : s.launch.interactive = false)
    (hne : s.runState ≠ .suspended) (hs₁ : s.noReset) (hs₂ : (s.underSchedule hs).noReset) (h : step s = .next t) :
    step (s.underSchedule hs) = .next (t.underSchedule hs.tail) := by
  rw [step_of_noReset hs₁.hostTick, State.arrive_of_batch hm] at h
  rw [step_of_noReset hs₂.hostTick, State.arrive_of_batch (s := s.underSchedule hs) hm]
  exact engineStep_underSchedule (s := s.underSchedule s.hostInputs.tail) _ hs.tail hne h

/-- A step takes one entry off the host's inputs. -/
theorem step_hostInputs {s t : State} (h : step s = .next t) : t.hostInputs = s.hostInputs.tail := by
  rcases step_next_cases h with ⟨-, rfl⟩ | ⟨-, hmove⟩
  · rfl
  · exact hmove.hostInputs_eq

theorem step_noReset {s t : State} (hs : s.noReset) (h : step s = .next t) : t.noReset := fun x hx =>
  hs x (List.mem_of_mem_tail (step_hostInputs h ▸ hx))

theorem step_statusCoherent {s t : State} (hs : StatusCoherent s) (h : step s = .next t) : StatusCoherent t :=
  step_keeps (P := StatusCoherent) (fun _ => StatusCoherent.arrive) (fun s _ => StatusCoherent.restart s)
    (fun _ _ _ => EngineMove.statusCoherent) hs h

/-- A coherent batch run is not SUSPENDED. -/
theorem StatusCoherent.ne_suspended {s : State} (hs : StatusCoherent s) (hm : s.launch.interactive = false) :
    s.runState ≠ .suspended := fun hr => by simp [hs.suspended hr] at hm

/-- A run of k + 1 steps is a step and a run of k steps from where it leads. -/
theorem run_succ {s t : State} (k : Nat) (h : step s = .next t) :
    Host.Core.run core (k + 1) s = Host.Core.run core k t := by
  have h : core.step s = .next t := h
  simp only [Host.Core.run, h]

/-- k steps of a coherent batch run under two schedules lead to states that differ in the schedule alone. -/
theorem run_underSchedule {s : State} {hs : List HostTick} (k : Nat) (hcoh : StatusCoherent s)
    (hm : s.launch.interactive = false) (hs₁ : s.noReset) (hs₂ : (s.underSchedule hs).noReset) :
    ∃ t : State, Host.Core.run core k s = .next t ∧
      Host.Core.run core k (s.underSchedule hs) = .next (t.underSchedule (hs.drop k)) := by
  induction k generalizing s hs with
  | zero => exact ⟨s, rfl, rfl⟩
  | succ k ih =>
    obtain ⟨t, h, -⟩ := step_cases s
    have h' := step_underSchedule hm (hcoh.ne_suspended hm) hs₁ hs₂ h
    rw [run_succ k h, run_succ k h', ← List.drop_tail]
    exact ih (step_statusCoherent hcoh h) ((step_launch_inq h).1 ▸ hm) (step_noReset hs₁ h) (step_noReset hs₂ h')

/-- Settles O45: the two runs differ in the schedule alone, which is no part of the core's state. -/
theorem batchRunIgnoresTheHost : Obligations.BatchRunIgnoresTheHost := by
  intro s hs k hcoh hm hs₁ hs₂
  obtain ⟨t, ht, hu⟩ := run_underSchedule k hcoh hm hs₁ hs₂
  exact ⟨t, _, ht, hu, SameCore.underSchedule t _⟩

/-! ## The data interface -/

/-- The host may read a run that is over or SUSPENDED (R64). -/
theorem State.hostMayRead_iff (s : State) :
    s.hostMayRead = true ↔ s.runState.terminal = true ∨ s.runState = .suspended := by
  unfold State.hostMayRead
  cases s.runState <;> simp [RunState.terminal]

/-- Settles O60: each read is guarded by R64's condition. -/
theorem hostReadsOnlyStoppedRuns : Obligations.HostReadsOnlyStoppedRuns := by
  intro s
  rw [← s.hostMayRead_iff]
  refine ⟨fun i v => ?_, fun v => ?_, fun q => ?_⟩
  · simp [State.hostReadCell, and_assoc, eq_comm (a := v)]
  · simp [State.hostReadHands, eq_comm (a := v)]
  · simp [State.hostReadOutput, eq_comm (a := q)]

end Sys2Proof.Machine
end

section
/-! PROOFS. 30_encoding.md: the Value word and the instruction word, decoded and encoded, which words are illegal, the
addressing bit, and a jump's authored target. -/

namespace Sys2Proof

/-! ## The fields of a Value word, variant by variant (R83, R84) -/

section
variable {tag : Nat} {pay : BitVec 13}

theorem ofTagPay_empty_iff : ofTagPay tag pay = some .empty ↔ tag = 0 ∧ pay = 0 := by
  unfold ofTagPay
  split <;> simp_all

theorem ofTagPay_number_iff {n : Int} :
    ofTagPay tag pay = some (.number n) ↔ tag = 1 ∧ pay.toInt = n ∧ -999 ≤ n ∧ n ≤ 999 := by
  unfold ofTagPay
  split <;> grind

theorem ofTagPay_character_iff {c : Nat} :
    ofTagPay tag pay = some (.character c) ↔ tag = 2 ∧ pay.toNat = c ∧ 0x41 ≤ c ∧ c ≤ 0x5A := by
  unfold ofTagPay
  split <;> grind

theorem ofTagPay_memoryAddress_iff {n : Nat} :
    ofTagPay tag pay = some (.memoryAddress n) ↔ tag = 3 ∧ pay.toNat = n := by
  unfold ofTagPay
  split <;> simp_all

theorem ofTagPay_programAddress_iff {n : Nat} :
    ofTagPay tag pay = some (.programAddress n) ↔ tag = 4 ∧ pay.toNat = n := by
  unfold ofTagPay
  split <;> simp_all

end

/-- Settles O49: the cases of R84 on TAG and PAY. -/
theorem valueWordFields : Obligations.ValueWordFields := fun _ =>
  ⟨ofTagPay_empty_iff, fun _ => ofTagPay_number_iff, fun _ => ofTagPay_character_iff,
    fun _ => ofTagPay_memoryAddress_iff, fun _ => ofTagPay_programAddress_iff⟩

/-! ## Value words there and back (R84) -/

@[simp] theorem decodeValue_append (t : BitVec 3) (y : BitVec 13) : decodeValue (t ++ y) = ofTagPay t.toNat y := by
  rw [decodeValue, valueTag_append, valuePay_append]

/-- The payload of an encoded code, address or index is that number. -/
theorem toNat_ofNat_13 {n : Nat} (h : n < 8192) : (BitVec.ofNat 13 n).toNat = n := by
  rw [BitVec.toNat_ofNat, Nat.mod_eq_of_lt h]

/-- A legal Value's payload fits PAY, so its word has the fields of its variant. -/
theorem decodeValue_encodeValue {v : Value} (h : v.legal = true) : decodeValue (encodeValue v) = some v := by
  cases v with
  | empty => rfl
  | number n =>
    obtain ⟨hlo, hhi⟩ := legal_number h
    rw [encodeValue, decodeValue_append, ofTagPay_number_iff]
    exact ⟨rfl, toInt_ofInt_13 n (by omega) (by omega), hlo, hhi⟩
  | character c =>
    obtain ⟨hlo, hhi⟩ : 0x41 ≤ c ∧ c ≤ 0x5A := by simpa [Value.legal] using h
    rw [encodeValue, decodeValue_append, ofTagPay_character_iff]
    exact ⟨rfl, toNat_ofNat_13 (by omega), hlo, hhi⟩
  | memoryAddress n =>
    rw [encodeValue, decodeValue_append, ofTagPay_memoryAddress_iff]
    exact ⟨rfl, toNat_ofNat_13 (of_decide_eq_true h)⟩
  | programAddress n =>
    rw [encodeValue, decodeValue_append, ofTagPay_programAddress_iff]
    exact ⟨rfl, toNat_ofNat_13 (of_decide_eq_true h)⟩

/-- A Value word is known by its fields. -/
theorem append_eq_of_fields {w : ValueWord} {t : BitVec 3} {y : BitVec 13} (htag : (valueTag w).toNat = t.toNat)
    (hpay : y = valuePay w) : t ++ y = w := by
  rw [← BitVec.eq_of_toNat_eq htag, hpay, valueWord_split]

theorem encodeValue_of_decodeValue {w : ValueWord} {v : Value} (h : decodeValue w = some v) : encodeValue v = w := by
  unfold decodeValue at h
  cases v with
  | empty =>
    obtain ⟨htag, hpay⟩ := ofTagPay_empty_iff.mp h
    exact append_eq_of_fields htag hpay.symm
  | number n =>
    obtain ⟨htag, rfl, -⟩ := ofTagPay_number_iff.mp h
    exact append_eq_of_fields htag BitVec.ofInt_toInt
  | character c =>
    obtain ⟨htag, rfl, -⟩ := ofTagPay_character_iff.mp h
    exact append_eq_of_fields htag (by simp)
  | memoryAddress n =>
    obtain ⟨htag, rfl⟩ := ofTagPay_memoryAddress_iff.mp h
    exact append_eq_of_fields htag (by simp)
  | programAddress n =>
    obtain ⟨htag, rfl⟩ := ofTagPay_programAddress_iff.mp h
    exact append_eq_of_fields htag (by simp)

/-- Settles O48: encoding keeps the fields that decoding reads, and these make up the word. -/
theorem valueWordsAreABijection : Obligations.ValueWordsAreABijection :=
  ⟨fun _ => decodeValue_encodeValue, fun _ _ h => ⟨decodeValue_legal h, encodeValue_of_decodeValue h⟩⟩

/-! ## Instruction words there and back (R82, R85, R86) -/

theorem ofOpcode_of_reserved {op : Nat} {p : Value} (h : 17 ≤ op) : ofOpcode op p = .error .reservedOpcode := by
  unfold ofOpcode
  split
  case h_18 => rfl
  all_goals omega

/-- A word with RSV = 0 and a PARAM that is not ill_formed decodes by the opcode map. -/
theorem decode_eq_ofOpcode {w : InsnWord} {p : Value} (hrsv : insnRsv w = 0)
    (hparam : decodeValue (insnParam w) = some p) : decode w = ofOpcode (insnOp w).toNat p := by
  unfold decode
  rw [if_neg (not_not.mpr hrsv), hparam]
  split
  · rename_i hop
    exact (ofOpcode_of_reserved hop).symm
  · rfl

/-- The opcode map yields every instruction from its own opcode and parameter. -/
theorem ofOpcode_opcode_param (i : Instr) : ofOpcode i.opcode i.param = .ok i := by cases i <;> rfl

theorem toNat_ofNat_opcode (i : Instr) : (BitVec.ofNat 5 i.opcode).toNat = i.opcode := by
  have hle := i.opcode_le
  rw [BitVec.toNat_ofNat, Nat.mod_eq_of_lt (by omega)]

/-- Settles O46: the word's fields are the instruction's opcode and parameter, and these determine it. -/
theorem decodeInvertsEncode : Obligations.DecodeInvertsEncode := by
  intro i h
  rw [Instr.wellFormed_eq] at h
  have hparam : decodeValue (insnParam (encode i)) = some i.param := by
    rw [insnParam_encode, decodeValue_encodeValue h]
  rw [decode_eq_ofOpcode (insnRsv_encode i) hparam, insnOp_encode, toNat_ofNat_opcode, ofOpcode_opcode_param]

/-- Settles O47: decoding fixes each of the three fields, and these make up the word. -/
theorem encodeInvertsDecode : Obligations.EncodeInvertsDecode := by
  intro w i h
  refine ⟨?_, decode_wellFormed h⟩
  obtain ⟨hrsv, hop, hparam⟩ := decode_ok h
  have hop : BitVec.ofNat 5 i.opcode = insnOp w := by rw [hop, BitVec.ofNat_toNat, BitVec.setWidth_eq]
  calc encode i = insnOp w ++ insnRsv w ++ insnParam w := by
        rw [encode, encodeValue_of_decodeValue hparam, hop, hrsv]
        rfl
    _ = w := insnWord_split w

/-- Settles O51: the decoder evaluates each word. -/
theorem wordsOfTheSpecDecode : Obligations.WordsOfTheSpecDecode := by
  unfold Obligations.WordsOfTheSpecDecode
  decide

/-! ## Illegal words (R87) -/

theorem withoutParam_error_iff {i : Instr} {p : Value} : (∃ e, withoutParam i p = .error e) ↔ p ≠ .empty := by
  unfold withoutParam
  split <;> simp_all

theorem withTarget_error_iff {f : Nat → Instr} {p : Value} :
    (∃ e, withTarget f p = .error e) ↔ ∀ t, p ≠ .programAddress t := by
  cases p <;> simp [withTarget]

/-- What the opcode map refuses: clauses (b), (d) and (e). -/
theorem ofOpcode_error_iff {op : Nat} {p : Value} :
    (∃ e, ofOpcode op p = .error e) ↔
      17 ≤ op ∨ (op ≤ 1 ∧ p ≠ .empty) ∨ (14 ≤ op ∧ op ≤ 16 ∧ ∀ t, p ≠ .programAddress t) := by
  obtain hop | hop := Nat.lt_or_ge op 17
  · interval_cases op <;> simp [ofOpcode, withoutParam_error_iff, withTarget_error_iff]
  · exact iff_of_true ⟨_, ofOpcode_of_reserved hop⟩ (.inl hop)

/-- 0x0000 is the one word of Empty. -/
theorem decodeValue_empty_iff {w : ValueWord} : decodeValue w = some .empty ↔ w = 0 :=
  ⟨fun h => (encodeValue_of_decodeValue h).symm, fun h => h ▸ rfl⟩

/-- TAG 4 marks the words of ProgramAddress. -/
theorem exists_eq_programAddress_iff {w : ValueWord} {p : Value} (h : decodeValue w = some p) :
    (∃ t, p = .programAddress t) ↔ valueTag w = 4 := by
  constructor
  · rintro ⟨t, rfl⟩
    exact BitVec.eq_of_toNat_eq (ofTagPay_programAddress_iff.mp h).1
  · intro htag
    have hw : decodeValue w = some (.programAddress (valuePay w).toNat) :=
      ofTagPay_programAddress_iff.mpr ⟨congrArg BitVec.toNat htag, rfl⟩
    exact ⟨_, Option.some.inj (h.symm.trans hw)⟩

/-- TAG of PARAM is bits [15:13] of the instruction word. -/
theorem valueTag_insnParam (w : InsnWord) : valueTag (insnParam w) = w.extractLsb' 13 3 := by
  unfold valueTag insnParam
  ext i hi
  simp

/-- The words without a decoding, by the clauses of R87. -/
theorem decode_error_iff (w : InsnWord) : (∃ e, decode w = .error e) ↔
    insnRsv w ≠ 0 ∨ 17 ≤ (insnOp w).toNat ∨ decodeValue (insnParam w) = none ∨
      ((insnOp w).toNat ≤ 1 ∧ insnParam w ≠ 0) ∨
      (14 ≤ (insnOp w).toNat ∧ (insnOp w).toNat ≤ 16 ∧ valueTag (insnParam w) ≠ 4) := by
  by_cases hrsv : insnRsv w = 0
  · cases hparam : decodeValue (insnParam w) with
    | none =>
      refine iff_of_true ?_ (.inr (.inr (.inl rfl)))
      cases hd : decode w with
      | error e => exact ⟨e, rfl⟩
      | ok i => simp [(decode_ok hd).2.2] at hparam
    | some p =>
      have hempty : p ≠ .empty ↔ insnParam w ≠ 0 := by
        rw [ne_eq, ne_eq, ← decodeValue_empty_iff, hparam, Option.some.injEq]
      have htarget : (∀ t, p ≠ .programAddress t) ↔ valueTag (insnParam w) ≠ 4 := by
        rw [ne_eq, ← exists_eq_programAddress_iff hparam, not_exists]
      rw [decode_eq_ofOpcode hrsv hparam, ofOpcode_error_iff, hempty, htarget]
      simp [hrsv]
  · exact iff_of_true ⟨_, if_pos hrsv⟩ (.inl hrsv)

namespace Machine

/-- A step from RUNNING that fetches an illegal word faults (40_engine.md R116). -/
theorem runningStep_of_decode_error {s : State} {w : InsnWord} {e : Illegal} (hb : s.icount.toNat < 1000)
    (hw : s.fetch = some w) (he : decode w = .error e) : runningStep s = .next (s.faulted .illegalInstruction) := by
  unfold runningStep
  rw [if_neg (Nat.not_le_of_lt hb), hw]
  simp only [dispatchWord, he, State.internalFault_eq, State.faulted]

/-- Settles O50: the clauses of R87 are where the decoder refuses, and the engine faults on a refused word. -/
theorem illegalWordsFault : Obligations.IllegalWordsFault := by
  refine ⟨fun w => ?_, fun s w e hr hreset hb hw he => ?_⟩
  · rw [← valueTag_insnParam]
    exact decode_error_iff w
  · rw [step_of_noReset hreset, engineStep_running (s := s.arrive) _ hr]
    exact runningStep_of_decode_error (s := s.arrive) hb hw he

end Machine

/-! ## The addressing bit (R93) -/

/-- OP is OP[4:1] followed by OP[0]. -/
theorem toNat_insnOp (w : InsnWord) : (insnOp w).toNat = 2 * (w.extractLsb' 28 4).toNat + (w.getLsbD 27).toNat := by
  rw [← BitVec.testBit_toNat, insnOp, BitVec.extractLsb'_toNat, BitVec.extractLsb'_toNat, Nat.toNat_testBit]
  omega

/-- Among the memory-addressed forms the indirect ones have the odd opcodes. -/
theorem Instr.indirect_eq_odd_opcode {i : Instr} (hlo : 2 ≤ i.opcode) (hhi : i.opcode ≤ 13) :
    i.indirect = decide (i.opcode % 2 = 1) := by
  cases i with
  | inbox | outbox => simp [Instr.opcode] at hlo
  | jump t | jumpIfZero t | jumpIfNegative t => simp [Instr.opcode] at hhi
  | _ => simp [Instr.opcode, Instr.indirect]

/-- A word of operation k decodes to that operation's form in the mode of bit 27. -/
theorem decode_of_operation {w : InsnWord} {p : Value} {k : BitVec 4} {direct indirect : Instr}
    (hparam : decodeValue (insnParam w) = some p) (hrsv : insnRsv w = 0)
    (hd : ofOpcode (2 * k.toNat) p = .ok direct) (hi : ofOpcode (2 * k.toNat + 1) p = .ok indirect)
    (hop : w.extractLsb' 28 4 = k) :
    decode w = .ok (if w.getLsbD 27 then indirect else direct) := by
  rw [decode_eq_ofOpcode hrsv hparam, toNat_insnOp, hop]
  cases w.getLsbD 27
  · exact hd
  · exact hi

/-- Settles O52: OP is twice OP[4:1] plus the mode bit, and the opcode map pairs each operation's forms so. -/
theorem modeBitSelectsTheAddressing : Obligations.ModeBitSelectsTheAddressing := by
  refine ⟨fun w i h hlo hhi => ?_, fun w p hparam hrsv => ?_⟩
  · obtain ⟨-, hop, -⟩ := decode_ok h
    rw [Instr.indirect_eq_odd_opcode hlo hhi, hop, toNat_insnOp]
    cases w.getLsbD 27 <;> simp
  · have row {k : BitVec 4} {direct indirect : Instr} := decode_of_operation (k := k) (direct := direct)
      (indirect := indirect) hparam hrsv
    exact ⟨row rfl rfl, row rfl rfl, row rfl rfl, row rfl rfl, row rfl rfl, row rfl rfl⟩

/-! ## A jump's authored target (R90, R91) -/

namespace Machine

theorem jumpMnemonic_eq_some_iff {m : List Char} {f : Nat → Instr} : jumpMnemonic m = some f ↔
    (m = "JUMP".toList ∧ f = .jump) ∨ (m = "JUMP_IF_ZERO".toList ∧ f = .jumpIfZero) ∨
      (m = "JUMP_IF_NEGATIVE".toList ∧ f = .jumpIfNegative) := by
  unfold jumpMnemonic
  split_ifs with hjump hzero hnegative
  · simp [hjump, eq_comm (a := f)]
  · simp [hzero, eq_comm (a := f)]
  · simp [hnegative, eq_comm (a := f)]
  · simp only [hjump, hzero, hnegative, false_and, or_self]

/-- Settles O53: the target's bounds, and the three mnemonics one by one. -/
theorem jumpTargetsAreAuthoredFromOne : Obligations.JumpTargetsAreAuthoredFromOne := by
  intro m t i
  rw [assembleJump, Option.ite_none_right_eq_some, Option.map_eq_some_iff, and_assoc]
  simp only [jumpMnemonic_eq_some_iff, or_and_right, exists_or, and_assoc, exists_and_left, exists_eq_left,
    eq_comm (a := i)]

end Machine

end Sys2Proof
end

section
/-! PROOFS. 40_engine.md: the loop-entry checks in order, how an instruction moves pc and what it leaves when it fails,
the range check, the terminal states and their outcome, and the bound that the budget puts on a run. -/

namespace Sys2Proof.Machine

/-! ## A step from RUNNING (R111 to R116) -/

theorem step_of_running {s : State} (hr : s.runState = .running) (hreset : s.hostTick.reset = false) :
    step s = runningStep s.arrive :=
  (step_of_noReset hreset).trans (engineStep_running _ hr)

theorem runningStep_of_budget {s : State} (hb : 1000 ≤ s.icount.toNat) : runningStep s = .next s.haltOnBudget :=
  if_pos hb

theorem runningStep_of_fetch_none {s : State} (hb : s.icount.toNat < 1000) (hf : s.fetch = none) :
    runningStep s = .next (s.faulted .pcOutOfRange) := by
  simp only [runningStep, if_neg (Nat.not_le_of_lt hb), hf]
  rfl

theorem runningStep_of_illegal {s : State} {w : InsnWord} {e : Illegal} (hb : s.icount.toNat < 1000)
    (hf : s.fetch = some w) (he : decode w = .error e) : runningStep s = .next (s.faulted .illegalInstruction) := by
  simp only [runningStep, if_neg (Nat.not_le_of_lt hb), hf, dispatchWord, he]
  rfl

/-- Settles O3: the arrival of the tick's pushes changes nothing that the loop-entry checks read. -/
theorem stepRunsTheDecodedInstruction : Obligations.StepRunsTheDecodedInstruction := fun s _ _ hr hreset hb hw hi =>
  (step_of_running hr hreset).trans (runningStep_of_decode (s := s.arrive) hb hw hi)

/-- Settles O4: the checks one by one, at the state that the tick's pushes left. -/
theorem loopEntryChecksInOrder : Obligations.LoopEntryChecksInOrder := by
  intro s hr hreset
  rw [step_of_running hr hreset]
  refine ⟨fun hb => ?_, fun hb hpc => ?_, fun w hb hw => ⟨fun e he => ?_, fun i hi => ?_⟩⟩
  · exact runningStep_of_budget (s := s.arrive) hb
  · exact runningStep_of_fetch_none (s := s.arrive) hb (List.getElem?_eq_none_iff.mpr hpc)
  · exact runningStep_of_illegal (s := s.arrive) hb hw he
  · exact runningStep_of_decode (s := s.arrive) hb hw hi

/-! ## The range check (R124) -/

/-- Settles O23: the range check, by the direction of the result. -/
theorem rangeCheckByDirection : Obligations.RangeCheckByDirection := fun _ =>
  ⟨fun h => rangeCheck_error_iff.mpr (.inl ⟨h, rfl⟩), fun h => rangeCheck_error_iff.mpr (.inr ⟨h, rfl⟩),
    fun hlo hhi => rangeCheck_ok_iff.mpr ⟨hlo, hhi, rfl⟩⟩

/-! ## An instruction that commits or fails (R118, R125) -/

/-- An instruction that is no jump commits to the next instruction. -/
theorem CommitShape.nextPc_of_opcode_lt {i : Instr} {s : State} {c : Commit} (h : CommitShape i s c)
    (hi : i.opcode < 14) : c.nextPc = s.pc + 1 := by
  rcases h.nextPc with hpc | ⟨t, -, ho, -⟩
  · exact hpc
  · omega

/-- A conditional jump on a Number goes by its condition. -/
theorem jumpIfChecks_of_number {cond : Int → Bool} {k : Nat} {s : State} {n : Int} (hn : s.hands = .number n) :
    jumpIfChecks cond k s = .ok (s.goTo (if cond n then BitVec.ofNat 14 k else s.pc + 1)) := by
  rw [jumpIfChecks, hn, numberOr_number, Checked.ok_bind]

/-- A conditional jump on anything but a Number raises. -/
theorem jumpIfChecks_of_notNumber {cond : Int → Bool} {k : Nat} {s : State} (hn : NotNumber s.hands) :
    jumpIfChecks cond k s = .error (.raise .badJumpConditionType) := by
  rw [jumpIfChecks, numberOr_error_iff.mpr ⟨hn, rfl⟩, Checked.error_bind]

/-- Where an instruction that runs the checks of a conditional jump leaves pc. -/
theorem exec_jumpIf_pc {i : Instr} {cond : Int → Bool} {k : Nat} {s t : State}
    (hi : checksOf s i = jumpIfChecks cond k s) (h : exec i s = .next t) :
    (∀ n, s.hands = .number n → t.pc = if cond n then BitVec.ofNat 14 k else s.pc + 1) ∧
      (NotNumber s.hands → t.pc = s.pc) := by
  obtain rfl : s.conclude (jumpIfChecks cond k s) = t := by simpa [exec_eq, hi] using h
  refine ⟨fun n hn => ?_, fun hn => ?_⟩
  · rw [jumpIfChecks_of_number hn]
    rfl
  · rw [jumpIfChecks_of_notNumber hn]
    rfl

/-- Settles O27: the instructions without a target by the shape of their commit, and each jump by its checks. -/
theorem pcMovesByOpcode : Obligations.PcMovesByOpcode := by
  refine ⟨fun i s t hi hr h => ?_, fun s t k h => ?_, fun s t k h => ?_, fun s t k h => ?_⟩
  · rcases exec_next_cases h with ⟨c, -, hshape, rfl⟩ | ⟨e, -, rfl⟩ | ⟨-, -, rfl | rfl⟩
    · exact ⟨fun _ => hshape.nextPc_of_opcode_lt hi, fun hne => absurd hr hne⟩
    · simp
    · simp
    · simp
  · cases h
    rfl
  · obtain ⟨hnumber, hnot⟩ := exec_jumpIf_pc rfl h
    exact ⟨fun hn => by simp [hnumber _ hn, isZero], fun n hn hne => by simp [hnumber n hn, isZero, hne], hnot⟩
  · obtain ⟨hnumber, hnot⟩ := exec_jumpIf_pc rfl h
    exact ⟨fun n hn hlt => by simp [hnumber n hn, isNegative, hlt],
      fun n hn hle => by simp [hnumber n hn, isNegative, Int.not_lt.mpr hle], hnot⟩

/-- Settles O28: a commit stays RUNNING, and each other answer writes status fields alone. -/
theorem failedInstructionWritesNothing : Obligations.FailedInstructionWritesNothing := by
  intro i s t hr h hne
  rcases exec_next_cases h with ⟨c, -, -, rfl⟩ | ⟨e, -, rfl⟩ | ⟨-, -, rfl | rfl⟩
  · exact absurd hr hne
  · exact ⟨⟨rfl, rfl, rfl, rfl, rfl, rfl⟩, ⟨rfl, rfl, rfl, rfl⟩, rfl, fun _ => ⟨e, rfl⟩, by simp⟩
  · exact ⟨⟨rfl, rfl, rfl, rfl, rfl, rfl⟩, ⟨rfl, rfl, rfl, rfl⟩, rfl, by simp, fun _ => rfl⟩
  · exact ⟨⟨rfl, rfl, rfl, rfl, rfl, rfl⟩, ⟨rfl, rfl, rfl, rfl⟩, rfl, by simp, fun _ => rfl⟩

/-! ## Terminal states and their outcome (R121, R123) -/

theorem SameCore.arrive (s : State) : SameCore s s.arrive := ⟨rfl, rfl, rfl, rfl, rfl, rfl, rfl, rfl, rfl⟩

theorem step_of_terminal {s : State} (ht : s.runState.terminal = true) (hreset : s.hostTick.reset = false) :
    step s = .next s.arrive :=
  (step_of_noReset hreset).trans (engineStep_terminal _ ht)

/-- Settles O5: without RESET the step is the pushes' arrival, with RESET it restarts the run. -/
theorem terminalStatesAreQuiescent : Obligations.TerminalStatesAreQuiescent := by
  intro s ht
  cases hreset : s.hostTick.reset with
  | false => exact ⟨s.arrive, step_of_terminal ht hreset, rfl, fun _ => SameCore.arrive s, by simp⟩
  | true => exact ⟨s.arrive.restart, step_of_reset hreset, rfl, by simp, fun _ => ⟨rfl, rfl, rfl⟩⟩

/-- A coherent run that ended in an error has an error kind (10_state.md R33). -/
theorem StatusCoherent.exists_errKind {s : State} (hs : StatusCoherent s) (hr : s.runState = .haltedOnError) :
    ∃ e, s.errKind = some e := Option.ne_none_iff_exists'.mp (hs.errKind.mpr hr)

/-- A coherent run that ended in an internal fault has a fault kind (10_state.md R34). -/
theorem StatusCoherent.exists_faultKind {s : State} (hs : StatusCoherent s)
    (hr : s.runState = .haltedOnInternalFault) : ∃ k, s.faultKind = some k :=
  Option.ne_none_iff_exists'.mp (hs.faultKind.mpr hr)

/-- A coherent run that halted normally has taken all of its input. -/
theorem StatusCoherent.unread_eq_nil {s : State} (hs : StatusCoherent s) (hr : s.runState = .haltedNormally) :
    s.unread = [] := List.drop_eq_nil_of_le (hs.normal hr).2

theorem StatusCoherent.outcome_ne_none_iff {s : State} (hs : StatusCoherent s) :
    s.outcome ≠ none ↔ s.runState.terminal = true := by
  cases hr : s.runState with
  | haltedOnError =>
    obtain ⟨e, he⟩ := hs.exists_errKind hr
    simp [State.outcome, RunState.terminal, hr, he]
  | haltedOnInternalFault =>
    obtain ⟨k, hk⟩ := hs.exists_faultKind hr
    simp [State.outcome, RunState.terminal, hr, hk]
  | _ => simp [State.outcome, RunState.terminal, hr]

/-- Settles O59: coherence supplies the kind of an error or a fault, and the end of the input at a normal halt. -/
theorem terminalStatesHaveTheirOutcome : Obligations.TerminalStatesHaveTheirOutcome := by
  intro s hs
  refine ⟨hs.outcome_ne_none_iff, fun hr => ?_, fun hr => ?_, fun hr => ?_, fun hr => ?_, fun hr => ⟨?_, ?_⟩⟩
  · simp [State.outcome, hr, hs.unread_eq_nil hr]
  · obtain ⟨e, he⟩ := hs.exists_errKind hr
    exact ⟨e, he, by simp [State.outcome, hr, he]⟩
  · simp [State.outcome, hr]
  · obtain ⟨k, hk⟩ := hs.exists_faultKind hr
    exact ⟨k, hk, by simp [State.outcome, hr, hk]⟩
  · simp [State.outcome, hr]
  · exact hs.kinds_none (by simp [hr]) (by simp [hr])

/-! ## The budget bounds a run (R112, R122) -/

/-- A step from RUNNING leaves RUNNING, or completes an instruction below the budget. -/
theorem step_leaves_running_or_counts {s t : State} (hr : s.runState = .running) (hs : s.noReset)
    (h : step s = .next t) :
    t.runState ≠ .running ∨
      (t.runState = .running ∧ s.icount.toNat < 1000 ∧ t.icount.toNat = s.icount.toNat + 1) := by
  rcases step_next_cases h with ⟨hreset, -⟩ | ⟨-, hmove⟩
  · simp [hs.hostTick] at hreset
  rcases hmove.completes_or_keeps with ⟨i, c, hc⟩ | ⟨hne, -⟩
  · have hb : s.icount.toNat < 1000 := (hc.bounds fun hsusp => by simp [hr] at hsusp).1
    exact .inr ⟨hc.running, hb, hc.icount hb⟩
  · exact .inl hne

/-- A RUNNING run with fewer than k instructions of its budget left stops running within k steps. -/
theorem exists_run_ne_running {s : State} (k : Nat) (hr : s.runState = .running) (hs : s.noReset)
    (hle : s.icount.toNat ≤ 1000) (hk : 1000 < s.icount.toNat + k) :
    ∃ (j : Nat) (t : State), j ≤ k ∧ Host.Core.run core j s = .next t ∧ t.runState ≠ .running := by
  induction k generalizing s with
  | zero => omega
  | succ k ih =>
    obtain ⟨t, h, -⟩ := step_cases s
    rcases step_leaves_running_or_counts hr hs h with hne | ⟨hrt, hb, hcount⟩
    · exact ⟨1, t, by omega, run_succ 0 h, hne⟩
    · obtain ⟨j, u, hj, hu, hne⟩ := ih hrt (step_noReset hs h) (by omega) (by omega)
      exact ⟨j + 1, u, by omega, (run_succ j h).trans hu, hne⟩

/-- Settles O44: at most the instructions left of the budget complete, and one more step ends the running. -/
theorem engineRunsAtMostTheBudget : Obligations.EngineRunsAtMostTheBudget := fun _ hr hs hle =>
  exists_run_ne_running _ hr hs hle (by omega)

/-- A coherent batch run is over as soon as it is not RUNNING. -/
theorem StatusCoherent.terminal_of_batch {s : State} (hs : StatusCoherent s) (hm : s.launch.interactive = false)
    (hne : s.runState ≠ .running) : s.runState.terminal = true := by
  have hsusp := hs.ne_suspended hm
  cases hr : s.runState <;> simp [RunState.terminal, hr] at hne hsusp ⊢

/-- A coherent batch run that is over, or has fewer than k instructions of its budget left, is over after k steps. -/
theorem exists_run_terminal {s : State} (k : Nat) (hcoh : StatusCoherent s) (hm : s.launch.interactive = false)
    (hs : s.noReset)
    (hk : s.runState.terminal = true ∨
      (s.runState = .running ∧ s.icount.toNat ≤ 1000 ∧ 1000 < s.icount.toNat + k)) :
    ∃ t : State, Host.Core.run core k s = .next t ∧ t.runState.terminal = true := by
  induction k generalizing s with
  | zero => exact ⟨s, rfl, hk.resolve_right (by omega)⟩
  | succ k ih =>
    obtain ⟨t, h, -⟩ := step_cases s
    have hcoht := step_statusCoherent hcoh h
    have hmt : t.launch.interactive = false := (step_launch_inq h).1 ▸ hm
    rw [run_succ k h]
    refine ih hcoht hmt (step_noReset hs h) ?_
    rcases hk with ht | ⟨hr, -, hk⟩
    · rw [step_of_terminal ht hs.hostTick] at h
      cases h
      exact .inl ht
    · rcases step_leaves_running_or_counts hr hs h with hne | ⟨hrt, hb, hcount⟩
      · exact .inl (hcoht.terminal_of_batch hmt hne)
      · exact .inr ⟨hrt, by omega, by omega⟩

/-- Settles O43: a run of the invariants is over, or RUNNING within the budget. -/
theorem batchRunEndsWithinTheBudget : Obligations.BatchRunEndsWithinTheBudget := by
  intro s hinv hm hs
  refine exists_run_terminal 1001 hinv.status hm hs ?_
  by_cases hr : s.runState = .running
  · exact .inr ⟨hr, hinv.counters.icount, by omega⟩
  · exact .inl (hinv.status.terminal_of_batch hm hr)

end Sys2Proof.Machine
end

section
/-! PROOFS. 41_io.md: INBOX and OUTBOX, each with its one word, and the two ways out of SUSPENDED. -/

namespace Sys2Proof.Machine

/-! ## The next input (R130) -/

theorem State.nextInput_eq_none {s : State} (h : s.inq.length ≤ s.inCursor.toNat) : s.nextInput = none :=
  List.getElem?_eq_none h

theorem State.commit_takeInput (s : State) (v : Value) :
    s.commit (s.takeInput v) = { s with
      hands := v, inCursor := s.inCursor + 1, pc := s.pc + 1, icount := s.icount + 1 } := by
  simp [State.commit, State.takeInput, Memory.commit]

theorem State.wake_eq (s : State) (v : Value) :
    s.wake v = { s with
      hands := v, inCursor := s.inCursor + 1, pc := s.pc + 1, icount := s.icount + 1, runState := .running } := by
  rw [State.wake, State.commit_takeInput]

/-! ## INBOX and OUTBOX (R130, R131) -/

/-- A well-formed instruction has one word, its encoding (30_encoding.md R82, R86). -/
theorem decode_eq_ok_iff {i : Instr} (hi : i.wellFormed = true) {w : InsnWord} : decode w = .ok i ↔ w = encode i :=
  ⟨fun h => (encodeInvertsDecode w i h).1.symm, fun h => h ▸ decodeInvertsEncode i hi⟩

theorem exec_inbox_of_nextInput {s : State} {v : Value} (h : s.nextInput = some v) :
    exec .inbox s = .next (s.commit (s.takeInput v)) := by
  rw [exec_eq, inboxChecks_of_nextInput h, State.conclude]

/-- An INBOX that finds no input halts the run or suspends it, by the mode. -/
theorem exec_inbox_of_exhausted {s : State} (h : s.nextInput = none) :
    exec .inbox s = .next (if s.launch.interactive then s.suspend else s.haltNormally) := by
  rw [exec_eq, checksOf, inboxChecks, h]
  cases s.launch.interactive <;> rfl

/-- Settles O9: by whether there is a next input, and on an exhausted one by the mode. The word is INBOX's encoding. -/
theorem inboxFollowsItsRule : Obligations.InboxFollowsItsRule := by
  refine ⟨fun s => ⟨fun v hv => ?_, fun hle hm => ?_, fun hle hm => ?_⟩, fun w => decode_eq_ok_iff rfl⟩
  · rw [exec_inbox_of_nextInput hv, State.commit_takeInput]
  · rw [exec_inbox_of_exhausted (State.nextInput_eq_none hle), hm]
    rfl
  · rw [exec_inbox_of_exhausted (State.nextInput_eq_none hle), hm]
    rfl

theorem outboxChecks_of_empty {s : State} (h : s.hands = .empty) : outboxChecks s = .error (.raise .emptyHands) := by
  simp [outboxChecks, nonEmptyOr, h]

theorem outboxChecks_of_ne_empty {s : State} (h : s.hands ≠ .empty) :
    outboxChecks s = .ok { hands := s.hands, output := some s.hands, nextPc := s.pc + 1 } := by
  simp [outboxChecks, nonEmptyOr, h]

/-- Settles O10: by whether hands is Empty. The word is OUTBOX's encoding. -/
theorem outboxFollowsItsRule : Obligations.OutboxFollowsItsRule := by
  refine ⟨fun s => ⟨fun h => ?_, fun h => ?_⟩, fun w => decode_eq_ok_iff rfl⟩
  · rw [exec_eq, checksOf, outboxChecks_of_empty h]
    rfl
  · rw [exec_eq, checksOf, outboxChecks_of_ne_empty h]
    rfl

/-! ## Leaving SUSPENDED (R132) -/

theorem step_of_suspended {s : State} (hr : s.runState = .suspended) (hreset : s.hostTick.reset = false) :
    step s = suspendedStep s.hostTick.cancel s.arrive :=
  (step_of_noReset hreset).trans (engineStep_suspended _ hr)

section
variable {s : State} {v : Value}

theorem suspendedStep_of_value (h : s.nextInput = some v) : suspendedStep false s = .next (s.wake v) := by
  simp only [suspendedStep, h]

theorem suspendedStep_of_cancel (h : s.nextInput = none) : suspendedStep true s = .next s.cancelRun := by
  simp only [suspendedStep, h]

/-- A value and CANCEL at once: the free value picks the outcome, and either way its counter advances (log 2). -/
theorem suspendedStep_of_race (h : s.nextInput = some v) :
    suspendedStep true s = .next ({ s with freeReads := s.freeReads + 1 }.wake v) ∨
      suspendedStep true s = .next { s with freeReads := s.freeReads + 1 }.cancelRun := by
  simp only [suspendedStep, h, State.race]
  cases Config.cancelWinsRace s.freeReads with
  | false => exact .inl rfl
  | true => exact .inr rfl

end

/-- Settles O6: the step is the suspended engine's, at the state that the tick's pushes left. -/
theorem suspendedRunWakesOrIsCancelled : Obligations.SuspendedRunWakesOrIsCancelled := by
  intro s hr hreset
  rw [step_of_suspended hr hreset]
  refine ⟨fun v hv hc => ?_, fun hle hc => ?_, fun v hv hc => ?_⟩
  · rw [hc, suspendedStep_of_value (s := s.arrive) hv, State.wake_eq]
    rfl
  · rw [hc, suspendedStep_of_cancel (s := s.arrive) (State.nextInput_eq_none hle)]
    rfl
  · rw [hc]
    refine (suspendedStep_of_race (s := s.arrive) hv).imp (fun h => ?_) id
    rw [h, State.wake_eq]
    rfl

end Sys2Proof.Machine
end

section
/-! PROOFS. 42_copy.md: COPYFROM and COPYTO in both modes, from the validator's answer on what a parameter names, and
the rows of the opcode table. -/

namespace Sys2Proof.Machine

/-! ## A row of the opcode table (30_encoding.md R86) -/

section
variable {w mask pattern : InsnWord} (h : w &&& mask = pattern)
include h

/-- A word that matches a row has the row's OP, where the mask covers OP. -/
theorem insnOp_of_masked (hmask : insnOp mask = BitVec.allOnes 5) : insnOp w = insnOp pattern := by
  have hand : insnOp (w &&& mask) = insnOp w &&& insnOp mask := BitVec.extractLsb'_and
  rw [← h, hand, hmask, BitVec.and_allOnes]

/-- A word that matches a row has the row's RSV, where the mask covers RSV. -/
theorem insnRsv_of_masked (hmask : insnRsv mask = BitVec.allOnes 11) : insnRsv w = insnRsv pattern := by
  have hand : insnRsv (w &&& mask) = insnRsv w &&& insnRsv mask := BitVec.extractLsb'_and
  rw [← h, hand, hmask, BitVec.and_allOnes]

end

/-- A pattern with RSV = 0 is the row of the form that the opcode map has at its OP. -/
theorem matchesRow_of_ofOpcode {form : Value → Instr} {pattern : InsnWord} (hrsv : insnRsv pattern = 0)
    (hop : ∀ p, ofOpcode (insnOp pattern).toNat p = .ok (form p)) : MatchesRow form pattern := by
  intro w p hw hparam
  rw [decode_eq_ofOpcode ((insnRsv_of_masked hw rfl).trans hrsv) hparam, insnOp_of_masked hw rfl]
  exact hop p

/-! ## The validator on a named cell and on an address error (20_memory.md R56, R58) -/

theorem Names.validate {s : State} {m : AddrMode} {p : Value} {i : Nat} (h : Names s m p i) :
    s.validate m p = .ok i := ((validatorFollowsItsStages s m p).1 i).mpr h

theorem Names.lt {s : State} {m : AddrMode} {p : Value} {i : Nat} (h : Names s m p i) : i < s.launch.memLen :=
  State.validate_lt h.validate

theorem AddressError.validate {s : State} {m : AddrMode} {p : Value} {e : ErrorKind} (h : AddressError s m p e) :
    s.validate m p = .error (.raise e) := ((validatorFollowsItsStages s m p).2 e).mpr h

/-! ## From an instruction's checks to its step (40_engine.md R117, R118) -/

theorem exec_of_raise {i : Instr} {s : State} {e : ErrorKind} (h : checksOf s i = .error (.raise e)) :
    exec i s = .next (s.erred e) := by
  rw [exec_eq, h]
  rfl

theorem exec_of_commit {i : Instr} {s : State} {c : Commit} (h : checksOf s i = .ok c) :
    exec i s = .next (s.commit c) := by
  rw [exec_eq, h, State.conclude_ok]

/-- The commit of a form that writes hands alone. -/
theorem State.commit_toHands (s : State) (v : Value) :
    s.commit { hands := v, nextPc := s.pc + 1 } = { s with hands := v, pc := s.pc + 1, icount := s.icount + 1 } := by
  simp [State.commit, Memory.commit]

/-- The commit of a form that writes a cell and hands. -/
theorem State.commit_toCell (s : State) (i : Nat) (v w : Value) :
    s.commit { hands := v, cell := some (i, w), nextPc := s.pc + 1 } =
      { s with mem := s.mem.write i w, hands := v, pc := s.pc + 1, icount := s.icount + 1 } := by
  simp [State.commit, Memory.commit]

/-! ## COPYFROM (R140, R141) -/

section
variable {s : State} {m : AddrMode} {p : Value} {i : Nat} {e : ErrorKind}

theorem copyFromChecks_of_addressError (h : AddressError s m p e) : copyFromChecks m p s = .error (.raise e) := by
  rw [copyFromChecks, h.validate, Checked.error_bind]

/-- A load of a named cell goes by what the cell holds. -/
theorem copyFromChecks_of_names (h : Names s m p i) :
    copyFromChecks m p s =
      (do let v ← nonEmptyOr .readingEmptyCell (s.mem.read i)
          .ok { hands := v, nextPc := s.pc + 1 }) := by
  rw [copyFromChecks, h.validate, Checked.ok_bind, State.memRead_of_lt h.lt, Checked.ok_bind]

theorem copyFromChecks_of_empty (h : Names s m p i) (hi : s.mem.read i = .empty) :
    copyFromChecks m p s = .error (.raise .readingEmptyCell) := by
  rw [copyFromChecks_of_names h, nonEmptyOr_error_iff.mpr ⟨hi, rfl⟩, Checked.error_bind]

theorem copyFromChecks_of_ne_empty (h : Names s m p i) (hi : s.mem.read i ≠ .empty) :
    copyFromChecks m p s = .ok { hands := s.mem.read i, nextPc := s.pc + 1 } := by
  rw [copyFromChecks_of_names h, nonEmptyOr_ok_iff.mpr ⟨hi, rfl⟩, Checked.ok_bind]

end

/-- A form that runs the checks of a load in a mode follows COPYFROM's rule in that mode. -/
theorem copyFromRule_of_checksOf {form : Value → Instr} {mode : AddrMode}
    (hform : ∀ s p, checksOf s (form p) = copyFromChecks mode p s) : CopyFromRule form mode := by
  refine fun s p => ⟨fun e he => ?_, fun i hi hempty => ?_, fun i hi hne => ?_⟩
  · exact exec_of_raise ((hform s p).trans (copyFromChecks_of_addressError he))
  · exact exec_of_raise ((hform s p).trans (copyFromChecks_of_empty hi hempty))
  · rw [exec_of_commit ((hform s p).trans (copyFromChecks_of_ne_empty hi hne)), State.commit_toHands]

/-- Settles O11: both forms run the checks of a load, each in its mode, and their rows name opcodes 2 and 3. -/
theorem copyFromFollowsItsRule : Obligations.CopyFromFollowsItsRule :=
  ⟨copyFromRule_of_checksOf fun _ _ => rfl, matchesRow_of_ofOpcode rfl fun _ => rfl,
    copyFromRule_of_checksOf fun _ _ => rfl, matchesRow_of_ofOpcode rfl fun _ => rfl⟩

/-! ## COPYTO (R142, R143) -/

section
variable {s : State} {m : AddrMode} {p : Value} {i : Nat} {e : ErrorKind}

/-- Empty hands are found first, whatever the address. -/
theorem copyToChecks_of_empty (h : s.hands = .empty) : copyToChecks m p s = .error (.raise .emptyHands) := by
  rw [copyToChecks, nonEmptyOr_error_iff.mpr ⟨h, rfl⟩, Checked.error_bind]

/-- With something in hands, a store goes by what the validator answers. -/
theorem copyToChecks_of_ne_empty (h : s.hands ≠ .empty) :
    copyToChecks m p s =
      (do let i ← s.validate m p
          let cell ← s.memWrite i s.hands
          .ok { hands := .empty, cell := some cell, nextPc := s.pc + 1 }) := by
  rw [copyToChecks, nonEmptyOr_ok_iff.mpr ⟨h, rfl⟩, Checked.ok_bind]

theorem copyToChecks_of_addressError (h : s.hands ≠ .empty) (he : AddressError s m p e) :
    copyToChecks m p s = .error (.raise e) := by
  rw [copyToChecks_of_ne_empty h, he.validate, Checked.error_bind]

theorem copyToChecks_of_names (h : s.hands ≠ .empty) (hi : Names s m p i) :
    copyToChecks m p s = .ok { hands := .empty, cell := some (i, s.hands), nextPc := s.pc + 1 } := by
  rw [copyToChecks_of_ne_empty h, hi.validate, Checked.ok_bind, State.memWrite_of_lt hi.lt, Checked.ok_bind]

end

/-- A form that runs the checks of a store in a mode follows COPYTO's rule in that mode. -/
theorem copyToRule_of_checksOf {form : Value → Instr} {mode : AddrMode}
    (hform : ∀ s p, checksOf s (form p) = copyToChecks mode p s) : CopyToRule form mode := by
  refine fun s p => ⟨fun hempty => ?_, fun e hne he => ?_, fun i hne hi => ?_⟩
  · exact exec_of_raise ((hform s p).trans (copyToChecks_of_empty hempty))
  · exact exec_of_raise ((hform s p).trans (copyToChecks_of_addressError hne he))
  · rw [exec_of_commit ((hform s p).trans (copyToChecks_of_names hne hi)), State.commit_toCell]

/-- Settles O12: both forms run the checks of a store, each in its mode, and their rows name opcodes 4 and 5. -/
theorem copyToFollowsItsRule : Obligations.CopyToFollowsItsRule :=
  ⟨copyToRule_of_checksOf fun _ _ => rfl, matchesRow_of_ofOpcode rfl fun _ => rfl,
    copyToRule_of_checksOf fun _ _ => rfl, matchesRow_of_ofOpcode rfl fun _ => rfl⟩

end Sys2Proof.Machine
end

section
/-! PROOFS. 43_arith.md: ADD and SUB in both modes. The two differ in their operation and in two error codes, so one
sequence of checks with these as parameters carries both rules. -/

namespace Sys2Proof.Machine

/-- The checks of ADD and SUB, for an operation on integers and the two type errors (R150 to R153). -/
def arithChecks (op : Int → Int → Int) (badHands badCell : ErrorKind) (mode : AddrMode) (p : Value) (s : State) :
    Checked Commit := do
  let a ← numberOr badHands s.hands
  let i ← s.validate mode p
  let c ← s.memRead i
  let b ← numberOr badCell c
  let h ← rangeCheck (op a b)
  .ok { hands := h, nextPc := s.pc + 1 }

theorem addChecks_eq_arithChecks (mode : AddrMode) (p : Value) (s : State) :
    addChecks mode p s =
      arithChecks (fun a b => a + b) .badAddendTypeInHands .badAddendTypeInMemory mode p s := rfl

theorem subChecks_eq_arithChecks (mode : AddrMode) (p : Value) (s : State) :
    subChecks mode p s =
      arithChecks (fun a b => a - b) .badSubtrahendTypeInHands .badSubtrahendTypeInMemory mode p s := rfl

/-! ## The checks in their order (R150, R152) -/

section
variable {op : Int → Int → Int} {badHands badCell e : ErrorKind} {s : State} {m : AddrMode} {p : Value} {i : Nat}
  {a b : Int}

/-- The type of hands is checked first, whatever the address. -/
theorem arithChecks_of_notNumber_hands (h : NotNumber s.hands) :
    arithChecks op badHands badCell m p s = .error (.raise badHands) := by
  rw [arithChecks, numberOr_error_iff.mpr ⟨h, rfl⟩, Checked.error_bind]

theorem arithChecks_of_addressError (ha : s.hands = .number a) (he : AddressError s m p e) :
    arithChecks op badHands badCell m p s = .error (.raise e) := by
  rw [arithChecks, ha, numberOr_number, Checked.ok_bind, he.validate, Checked.error_bind]

/-- With a Number in hands and a named cell, the form goes by what the cell holds. -/
theorem arithChecks_of_names (ha : s.hands = .number a) (hi : Names s m p i) :
    arithChecks op badHands badCell m p s =
      (do let b ← numberOr badCell (s.mem.read i)
          let h ← rangeCheck (op a b)
          .ok { hands := h, nextPc := s.pc + 1 }) := by
  rw [arithChecks, ha, numberOr_number, Checked.ok_bind, hi.validate, Checked.ok_bind, State.memRead_of_lt hi.lt,
    Checked.ok_bind]

theorem arithChecks_of_notNumber_cell (ha : s.hands = .number a) (hi : Names s m p i)
    (hc : NotNumber (s.mem.read i)) : arithChecks op badHands badCell m p s = .error (.raise badCell) := by
  rw [arithChecks_of_names ha hi, numberOr_error_iff.mpr ⟨hc, rfl⟩, Checked.error_bind]

/-- On two Numbers the form goes by the range check of their exact result. -/
theorem arithChecks_of_numbers (ha : s.hands = .number a) (hi : Names s m p i) (hb : s.mem.read i = .number b) :
    arithChecks op badHands badCell m p s =
      (do let h ← rangeCheck (op a b)
          .ok { hands := h, nextPc := s.pc + 1 }) := by
  rw [arithChecks_of_names ha hi, hb, numberOr_number, Checked.ok_bind]

end

/-! ## ADD and SUB (R150 to R153) -/

/-- A form that runs the checks of an arithmetic instruction in a mode follows its rule in that mode. -/
theorem arithRule_of_checksOf {form : Value → Instr} {mode : AddrMode} {op : Int → Int → Int}
    {badHands badCell : ErrorKind}
    (hform : ∀ s p, checksOf s (form p) = arithChecks op badHands badCell mode p s) :
    ArithRule form mode op badHands badCell := by
  refine fun s p => ⟨fun hn => ?_, fun a e ha he => ?_, fun a i ha hi hc => ?_, fun a b i ha hi hb => ?_⟩
  · exact exec_of_raise ((hform s p).trans (arithChecks_of_notNumber_hands hn))
  · exact exec_of_raise ((hform s p).trans (arithChecks_of_addressError ha he))
  · exact exec_of_raise ((hform s p).trans (arithChecks_of_notNumber_cell ha hi hc))
  · have hchecks := (hform s p).trans (arithChecks_of_numbers ha hi hb)
    obtain ⟨hover, hunder, hkept⟩ := rangeCheckByDirection (op a b)
    refine ⟨fun h => ?_, fun h => ?_, fun hlo hhi => ?_⟩
    · rw [hover h, Checked.error_bind] at hchecks
      exact exec_of_raise hchecks
    · rw [hunder h, Checked.error_bind] at hchecks
      exact exec_of_raise hchecks
    · rw [hkept hlo hhi, Checked.ok_bind] at hchecks
      rw [exec_of_commit hchecks, State.commit_toHands]

/-- Settles O13: both forms run the checks of an addition, each in its mode, and their rows name opcodes 6 and 7. -/
theorem addFollowsItsRule : Obligations.AddFollowsItsRule :=
  ⟨arithRule_of_checksOf fun s p => addChecks_eq_arithChecks .direct p s, matchesRow_of_ofOpcode rfl fun _ => rfl,
    arithRule_of_checksOf fun s p => addChecks_eq_arithChecks .indirect p s, matchesRow_of_ofOpcode rfl fun _ => rfl⟩

/-- Settles O14: both forms run the checks of a subtraction, each in its mode, and their rows name opcodes 8 and 9. -/
theorem subFollowsItsRule : Obligations.SubFollowsItsRule :=
  ⟨arithRule_of_checksOf fun s p => subChecks_eq_arithChecks .direct p s, matchesRow_of_ofOpcode rfl fun _ => rfl,
    arithRule_of_checksOf fun s p => subChecks_eq_arithChecks .indirect p s, matchesRow_of_ofOpcode rfl fun _ => rfl⟩

end Sys2Proof.Machine
end

section
/-! PROOFS. 44_bump.md: BUMP_UP and BUMP_DOWN in both modes. The two differ in their step and in the one range error
that their rule names. -/

namespace Sys2Proof.Machine

/-! ## The checks in their order (R160, R162) -/

section
variable {delta b : Int} {s : State} {m : AddrMode} {p : Value} {i : Nat} {e : ErrorKind}

/-- The address is checked first, whatever hands holds. -/
theorem bumpChecks_of_addressError (h : AddressError s m p e) : bumpChecks delta m p s = .error (.raise e) := by
  rw [bumpChecks, h.validate, Checked.error_bind]

/-- A bump of a named cell goes by what the cell holds; the write to it is always accepted. -/
theorem bumpChecks_of_names (hi : Names s m p i) :
    bumpChecks delta m p s =
      (do let b ← numberOr .badTypeForBumpInMemory (s.mem.read i)
          let n ← rangeCheck (b + delta)
          .ok { hands := n, cell := some (i, n), nextPc := s.pc + 1 }) := by
  simp only [bumpChecks, hi.validate, State.memRead_of_lt hi.lt, State.memWrite_of_lt hi.lt, Checked.ok_bind]

theorem bumpChecks_of_notNumber (hi : Names s m p i) (hc : NotNumber (s.mem.read i)) :
    bumpChecks delta m p s = .error (.raise .badTypeForBumpInMemory) := by
  rw [bumpChecks_of_names hi, numberOr_error_iff.mpr ⟨hc, rfl⟩, Checked.error_bind]

/-- On a Number the bump goes by the range check of the exact result. -/
theorem bumpChecks_of_number (hi : Names s m p i) (hb : s.mem.read i = .number b) :
    bumpChecks delta m p s =
      (do let n ← rangeCheck (b + delta)
          .ok { hands := n, cell := some (i, n), nextPc := s.pc + 1 }) := by
  rw [bumpChecks_of_names hi, hb, numberOr_number, Checked.ok_bind]

end

/-! ## BUMP_UP and BUMP_DOWN (R160 to R163) -/

/-- A form that runs the checks of a bump in a mode follows the bump's rule in that mode, for any out-of-range
condition on which the range check raises the rule's error. -/
theorem bumpRule_of_checksOf {form : Value → Instr} {mode : AddrMode} {delta : Int} {outOfRange : Int → Prop}
    {e : ErrorKind} (hform : ∀ s p, checksOf s (form p) = bumpChecks delta mode p s)
    (hout : ∀ r, outOfRange r → rangeCheck r = .error (.raise e)) : BumpRule form mode delta outOfRange e := by
  refine fun s p => ⟨fun e' he => ?_, fun i hi hc => ?_, fun b i hi hb => ?_⟩
  · exact exec_of_raise ((hform s p).trans (bumpChecks_of_addressError he))
  · exact exec_of_raise ((hform s p).trans (bumpChecks_of_notNumber hi hc))
  · have hchecks := (hform s p).trans (bumpChecks_of_number hi hb)
    refine ⟨fun h => ?_, fun hlo hhi => ?_⟩
    · rw [hout _ h, Checked.error_bind] at hchecks
      exact exec_of_raise hchecks
    · rw [rangeCheck_ok_iff.mpr ⟨hlo, hhi, rfl⟩, Checked.ok_bind] at hchecks
      rw [exec_of_commit hchecks, State.commit_toCell]

/-- Settles O15: both forms run the checks of a bump by 1, each in its mode, a result above 999 overflows, and their
rows name opcodes 10 and 11. -/
theorem bumpUpFollowsItsRule : Obligations.BumpUpFollowsItsRule :=
  ⟨bumpRule_of_checksOf (fun _ _ => rfl) fun r => (rangeCheckByDirection r).1,
    matchesRow_of_ofOpcode rfl fun _ => rfl,
    bumpRule_of_checksOf (fun _ _ => rfl) fun r => (rangeCheckByDirection r).1,
    matchesRow_of_ofOpcode rfl fun _ => rfl⟩

/-- Settles O16: both forms run the checks of a bump by -1, each in its mode, a result below -999 underflows, and
their rows name opcodes 12 and 13. -/
theorem bumpDownFollowsItsRule : Obligations.BumpDownFollowsItsRule :=
  ⟨bumpRule_of_checksOf (fun _ _ => rfl) fun r => (rangeCheckByDirection r).2.1,
    matchesRow_of_ofOpcode rfl fun _ => rfl,
    bumpRule_of_checksOf (fun _ _ => rfl) fun r => (rangeCheckByDirection r).2.1,
    matchesRow_of_ofOpcode rfl fun _ => rfl⟩

end Sys2Proof.Machine
end

section
/-! PROOFS. 45_jump.md: JUMP, JUMP_IF_ZERO and JUMP_IF_NEGATIVE, their rows of the opcode table, and the step after a
jump past the end of the program. -/

namespace Sys2Proof.Machine

/-! ## A jump's row of the opcode table (30_encoding.md R86) -/

/-- PAY of PARAM is bits [12:0] of the instruction word. -/
theorem valuePay_insnParam (w : InsnWord) : valuePay (insnParam w) = w.extractLsb' 0 13 := by
  unfold valuePay insnParam
  ext i hi
  simp

/-- A word that matches a row has the row's TAG, where the mask covers TAG. -/
theorem valueTag_insnParam_of_masked {w mask pattern : InsnWord} (h : w &&& mask = pattern)
    (hmask : valueTag (insnParam mask) = BitVec.allOnes 3) :
    valueTag (insnParam w) = valueTag (insnParam pattern) := by
  have hand : valueTag (insnParam (w &&& mask)) = valueTag (insnParam w) &&& valueTag (insnParam mask) := by
    simp only [valueTag_insnParam, BitVec.extractLsb'_and]
  rw [← h, hand, hmask, BitVec.and_allOnes]

/-- A PARAM with TAG 4 is the ProgramAddress of the word's bits [12:0] (R83, R88). -/
theorem decodeValue_insnParam_of_tag {w : InsnWord} (htag : valueTag (insnParam w) = 4) :
    decodeValue (insnParam w) = some (.programAddress (w.extractLsb' 0 13).toNat) :=
  ofTagPay_programAddress_iff.mpr ⟨congrArg BitVec.toNat htag, congrArg BitVec.toNat (valuePay_insnParam w)⟩

/-- A pattern with RSV = 0 and TAG 4 is the row of the jump that the opcode map has at its OP. -/
theorem matchesJumpRow_of_ofOpcode {form : Nat → Instr} {pattern : InsnWord} (hrsv : insnRsv pattern = 0)
    (htag : valueTag (insnParam pattern) = 4)
    (hop : ∀ t, ofOpcode (insnOp pattern).toNat (.programAddress t) = .ok (form t)) :
    MatchesJumpRow form pattern := by
  intro w hw
  have hparam := decodeValue_insnParam_of_tag ((valueTag_insnParam_of_masked hw rfl).trans htag)
  rw [decode_eq_ofOpcode ((insnRsv_of_masked hw rfl).trans hrsv) hparam, insnOp_of_masked hw rfl]
  exact hop _

/-! ## JUMP (R170) -/

/-- The commit of a control transfer writes pc and icount alone. -/
theorem State.commit_goTo (s : State) (target : ProgIndex) :
    s.commit (s.goTo target) = { s with pc := target, icount := s.icount + 1 } := by
  simp [State.commit, State.goTo, Memory.commit]

theorem exec_jump (t : Nat) (s : State) :
    exec (.jump t) s = .next { s with pc := BitVec.ofNat 14 t, icount := s.icount + 1 } := by
  rw [exec_of_commit rfl, State.commit_goTo]

/-- The target of a legal ProgramAddress fits pc. -/
theorem toNat_ofNat_target {t : Nat} (h : t < 8192) : (BitVec.ofNat 14 t).toNat = t := by
  rw [BitVec.toNat_ofNat, Nat.mod_eq_of_lt (by omega)]

/-- Settles O17: JUMP has no checks, a target fits pc, and its row names opcode 14. -/
theorem jumpFollowsItsRule : Obligations.JumpFollowsItsRule :=
  ⟨fun s t ht => ⟨exec_jump t s, toNat_ofNat_target (Nat.lt_succ_of_le ht)⟩,
    matchesJumpRow_of_ofOpcode rfl rfl fun _ => rfl⟩

/-! ## JUMP_IF_ZERO and JUMP_IF_NEGATIVE (R171, R172) -/

/-- A form that runs the checks of a conditional jump follows the rule of the condition that it tests. -/
theorem jumpIfRule_of_checksOf {form : Nat → Instr} {test : Int → Bool} {cond : Int → Prop}
    (hform : ∀ s t, checksOf s (form t) = jumpIfChecks test t s) (htest : ∀ n, test n = true ↔ cond n) :
    JumpIfRule form cond := by
  refine fun s t => ⟨fun hn => ?_, fun n hn hc => ?_, fun n hn hc => ?_⟩
  · exact exec_of_raise ((hform s t).trans (jumpIfChecks_of_notNumber hn))
  · rw [exec_of_commit ((hform s t).trans (jumpIfChecks_of_number hn)), State.commit_goTo, if_pos ((htest n).mpr hc)]
  · rw [exec_of_commit ((hform s t).trans (jumpIfChecks_of_number hn)), State.commit_goTo,
      if_neg (mt (htest n).mp hc)]

/-- Settles O18: the form runs the checks of a jump on isZero, and its row names opcode 15. -/
theorem jumpIfZeroFollowsItsRule : Obligations.JumpIfZeroFollowsItsRule :=
  ⟨jumpIfRule_of_checksOf (fun _ _ => rfl) fun _ => decide_eq_true_iff,
    matchesJumpRow_of_ofOpcode rfl rfl fun _ => rfl⟩

/-- Settles O19: the form runs the checks of a jump on isNegative, and its row names opcode 16. -/
theorem jumpIfNegativeFollowsItsRule : Obligations.JumpIfNegativeFollowsItsRule :=
  ⟨jumpIfRule_of_checksOf (fun _ _ => rfl) fun _ => decide_eq_true_iff,
    matchesJumpRow_of_ofOpcode rfl rfl fun _ => rfl⟩

/-! ## A jump past the end (R173) -/

/-- A decoded jump's target is the payload of a legal ProgramAddress (30_encoding.md R81). -/
theorem target_lt_of_decode_jump {w : InsnWord} {t : Nat} (h : decode w = .ok (.jump t)) : t < 8192 :=
  of_decide_eq_true (decode_wellFormed h)

/-- A step that runs a JUMP moves to the target, whether or not the program reaches that far. -/
theorem step_of_jump {s : State} {w : InsnWord} {t : Nat} (hr : s.runState = .running)
    (hreset : s.hostTick.reset = false) (hb : s.icount.toNat < 1000) (hw : s.launch.prog[s.pc.toNat]? = some w)
    (hd : decode w = .ok (.jump t)) :
    step s = .next { s.arrive with pc := BitVec.ofNat 14 t, icount := s.icount + 1 } :=
  (stepRunsTheDecodedInstruction s w _ hr hreset hb hw hd).trans (exec_jump t s.arrive)

/-- Settles O20: the jump leaves pc past the end and counts, so the next step fails the pc check, unless that count
has reached the budget. -/
theorem jumpPastTheEndFaultsAtTheNextStep : Obligations.JumpPastTheEndFaultsAtTheNextStep := by
  intro s w t hr hs hb hw hd hend
  obtain ⟨u, hu, hrun, hlaunch, hpc, hicount⟩ : ∃ u, step s = .next u ∧ u.runState = .running ∧
      u.launch = s.launch ∧ u.pc = BitVec.ofNat 14 t ∧ u.icount = s.icount + 1 :=
    ⟨_, step_of_jump hr hs.hostTick hb hw hd, hr, rfl, rfl, rfl⟩
  replace hpc : u.pc.toNat = t := by rw [hpc, toNat_ofNat_target (target_lt_of_decode_jump hd)]
  have hcount : u.icount.toNat = s.icount.toNat + 1 :=
    ((step_leaves_running_or_counts hr hs hu).resolve_left (not_not.mpr hrun)).2.2
  have hpast : u.launch.prog.length ≤ u.pc.toNat := by rwa [hlaunch, hpc]
  obtain ⟨hbudget, hfault, -⟩ := loopEntryChecksInOrder u hrun (step_noReset hs hu).hostTick
  exact ⟨u, hu, hrun, hpc, hicount, fun hlt => hfault (by omega) hpast, fun heq => hbudget (by omega)⟩

end Sys2Proof.Machine
end

section
/-! PROOFS. 60_exceptions.md: CANCEL and the waiting suspended run, which opcode raises which error, and the loader's
InvalidValue. -/

namespace Sys2Proof.Machine

/-! ## A suspended run that waits (R198) -/

theorem suspendedStep_of_waiting {s : State} (h : s.nextInput = none) : suspendedStep false s = .next s := by
  simp only [suspendedStep, h]

/-- Settles O7: the step answers the state that the tick's pushes left, and they leave R20's state alone. -/
theorem suspendedRunWaitsUnchanged : Obligations.SuspendedRunWaitsUnchanged := by
  intro s hr hreset hcancel hle
  refine ⟨s.arrive, ?_, SameCore.arrive s, rfl⟩
  rw [step_of_suspended hr hreset, hcancel]
  exact suspendedStep_of_waiting (s := s.arrive) (State.nextInput_eq_none hle)

/-! ## CANCEL (R191) -/

/-- Outside SUSPENDED the engine does not read CANCEL. -/
theorem engineStep_cancel_irrelevant {s : State} (c c' : Bool) (hne : s.runState ≠ .suspended) :
    engineStep c s = engineStep c' s := by
  cases hr : s.runState with
  | suspended => exact absurd hr hne
  | running => rw [engineStep_running c hr, engineStep_running c' hr]
  | _ => rw [engineStep_terminal c (by rw [hr]; rfl), engineStep_terminal c' (by rw [hr]; rfl)]

/-- Two states that are the same once the tick has arrived differ in the tick alone. With the same RESET that leaves
CANCEL, which no state outside SUSPENDED reads. -/
theorem step_eq_of_arrive_eq {s t : State} (hreset : s.hostTick.reset = t.hostTick.reset)
    (harrive : s.arrive = t.arrive) (hne : t.runState ≠ .suspended) : step s = step t := by
  cases ht : t.hostTick.reset with
  | true => rw [step_of_reset (hreset.trans ht), step_of_reset ht, harrive]
  | false =>
    rw [step_of_noReset (hreset.trans ht), step_of_noReset ht, harrive]
    exact engineStep_cancel_irrelevant _ _ hne

/-- Settles O8: CANCEL is one of the two ways out of SUSPENDED, no other state reads it, and a coherent batch run is
never SUSPENDED. -/
theorem cancelActsOnlyWhileSuspended : Obligations.CancelActsOnlyWhileSuspended := by
  refine ⟨fun s hr hreset hcancel hle => ?_, fun s h rest b hne => step_eq_of_arrive_eq rfl rfl hne,
    fun s h rest b hcoh hm => step_eq_of_arrive_eq rfl rfl (hcoh.ne_suspended hm)⟩
  obtain ⟨-, hcancelled, -⟩ := suspendedRunWakesOrIsCancelled s hr hreset
  exact hcancelled hle hcancel

/-! ## Which opcode raises which error (R181) -/

theorem Value.number_legal_iff {n : Int} : (Value.number n).legal = true ↔ -999 ≤ n ∧ n ≤ 999 := by
  simp [Value.legal]

theorem inboxChecks_ne_raise (s : State) (e : ErrorKind) : inboxChecks s ≠ .error (.raise e) := by
  unfold inboxChecks
  split
  · simp
  · split <;> simp

theorem outboxChecks_error {s : State} {h : Halt} (hc : outboxChecks s = .error h) : h = .raise .emptyHands := by
  by_cases hempty : s.hands = .empty
  · rw [outboxChecks_of_empty hempty] at hc
    cases hc
    rfl
  · rw [outboxChecks_of_ne_empty hempty] at hc
    cases hc

/-- A legal Number plus 1 is not below the range, so BUMP_UP's one range error is Overflow. -/
theorem bumpUpChecks_error {s : State} {m : AddrMode} {p : Value} {h : Halt} (hv : ValuesLegal s)
    (hc : bumpChecks 1 m p s = .error h) :
    ∃ e, h = .raise e ∧ (e ∈ addressCodes m ∨ e ∈ [ErrorKind.badTypeForBumpInMemory, .overflow]) := by
  obtain ⟨e, rfl, he⟩ := bumpChecks_error hc
  refine ⟨e, rfl, ?_⟩
  rcases he with he | rfl | ⟨b, i, hb, ⟨-, rfl⟩ | ⟨hlt, rfl⟩⟩
  · exact .inl he
  · simp
  · simp
  · have hrange := Value.number_legal_iff.mp (hb ▸ hv.cell i)
    omega

/-- A legal Number minus 1 is not above the range, so BUMP_DOWN's one range error is Underflow. -/
theorem bumpDownChecks_error {s : State} {m : AddrMode} {p : Value} {h : Halt} (hv : ValuesLegal s)
    (hc : bumpChecks (-1) m p s = .error h) :
    ∃ e, h = .raise e ∧ (e ∈ addressCodes m ∨ e ∈ [ErrorKind.badTypeForBumpInMemory, .underflow]) := by
  obtain ⟨e, rfl, he⟩ := bumpChecks_error hc
  refine ⟨e, rfl, ?_⟩
  rcases he with he | rfl | ⟨b, i, hb, ⟨hlt, rfl⟩ | ⟨-, rfl⟩⟩
  · exact .inl he
  · simp
  · have hrange := Value.number_legal_iff.mp (hb ▸ hv.cell i)
    omega
  · simp

/-- Where all the errors P of a form's checks are ones that the table gives an opcode, so is the error they raise. That
they are is looked up in the table, error by error. -/
theorem mem_raisers_of_error {x : Checked Commit} {P : ErrorKind → Prop} {e : ErrorKind} {op : Nat}
    (h : x = .error (.raise e)) (hx : ∀ {h}, x = .error h → ∃ e, h = .raise e ∧ P e)
    (hP : ∀ e, P e → op ∈ e.raisers := by
      simp [or_imp, forall_and, addressCodes, Instr.opcode, ErrorKind.raisers]) : op ∈ e.raisers := by
  by_contra he
  exact ne_error_raise hx (mt (hP e) he) h

/-- What an instruction's checks raise from legal Values, the table gives its opcode. -/
theorem opcode_mem_raisers {s : State} {i : Instr} {e : ErrorKind} (hv : ValuesLegal s)
    (h : checksOf s i = .error (.raise e)) : i.opcode ∈ e.raisers := by
  cases i with
  | inbox => exact absurd h (inboxChecks_ne_raise s e)
  | outbox =>
    cases outboxChecks_error h
    decide
  | copyFrom p | copyFromIndirect p =>
    exact mem_raisers_of_error h copyFromChecks_error
  | copyTo p | copyToIndirect p =>
    exact mem_raisers_of_error h copyToChecks_error
  | add p | addIndirect p =>
    exact mem_raisers_of_error h addChecks_error
  | sub p | subIndirect p =>
    exact mem_raisers_of_error h subChecks_error
  | bumpUp p | bumpUpIndirect p =>
    exact mem_raisers_of_error h (bumpUpChecks_error hv)
  | bumpDown p | bumpDownIndirect p =>
    exact mem_raisers_of_error h (bumpDownChecks_error hv)
  | jump t => cases h
  | jumpIfZero t | jumpIfNegative t =>
    cases jumpIfChecks_error h
    simp [Instr.opcode, ErrorKind.raisers]

/-- Settles O34: of an instruction's answers only an error writes err_kind, and its checks raised it. -/
theorem errorsComeFromTheirRaisers : Obligations.ErrorsComeFromTheirRaisers := by
  intro i s t e hv h he hnone
  rcases exec_next_cases h with ⟨c, -, -, rfl⟩ | ⟨e', hraise, rfl⟩ | ⟨-, -, rfl | rfl⟩
  · simp [hnone] at he
  · obtain rfl : e' = e := by simpa using he
    exact opcode_mem_raisers hv hraise
  · simp [hnone] at he
  · simp [hnone] at he

/-! ## The loader's InvalidValue (R182) -/

theorem constructValue_error_iff {v : Value} : constructValue v = .error .invalidValue ↔ v.legal = false := by
  simp [constructValue]

theorem constructValue_ok_iff {v : Value} : constructValue v = .ok v ↔ v.legal = true := by
  simp [constructValue]

theorem constructWord_error_iff {w : ValueWord} : constructWord w = .error .invalidValue ↔ decodeValue w = none := by
  cases h : decodeValue w <;> simp [constructWord, h]

/-- Settles O56: each constructor by its own test, and a Number by its bounds. -/
theorem loaderRefusesIllegalValues : Obligations.LoaderRefusesIllegalValues :=
  ⟨fun _ => ⟨constructValue_error_iff, constructValue_ok_iff.mpr⟩, fun _ => constructWord_error_iff,
    fun _ => constructValue_ok_iff.trans Value.number_legal_iff⟩

end Sys2Proof.Machine
end

section
/-! PROOFS. 70_reset_and_hazards.md: what the loader accepts and the run it starts (R212), and a store seen by the very
next instruction (R213). -/

namespace Sys2Proof.Machine

/-! ## What the loader accepts (R212) -/

/-- A check of the loader passes exactly when its test finds nothing and the checks after it pass. -/
theorem LoadError.check_eq_ok_iff {refused : Prop} [Decidable refused] {e : LoadError} {rest : Except LoadError State}
    {t : State} : (if refused then .error e else rest) = .ok t ↔ ¬ refused ∧ rest = .ok t := by
  split <;> simp [*]

/-- A room is accepted within the bounds of R212(a) and (b); MEM_LEN and the room image are all that it sets. -/
theorem State.loadRoom_ok_iff {s t : State} {memLen : Nat} {pairs : List Cell} :
    s.loadRoom memLen pairs = .ok t ↔
      memLen ≤ Config.maxLen ∧ (∀ c ∈ pairs, c.1 < memLen) ∧ (∀ c ∈ pairs, c.2.legal = true) ∧
        { s with launch := { s.launch with memLen := memLen, room := Memory.ofPairs pairs } } = t := by
  simp [State.loadRoom, LoadError.check_eq_ok_iff]

/-- A program is accepted within the bounds of R212(a) and (c); its words are all that it sets. -/
theorem State.loadProgram_ok_iff {s t : State} {is : List Instr} :
    s.loadProgram is = .ok t ↔
      is.length ≤ Config.maxLen ∧ (∀ i ∈ is, i.paramKindOk = true) ∧ (∀ i ∈ is, i.param.legal = true) ∧
        (∀ i ∈ is, i.targetIn is.length = true) ∧
        { s with launch := { s.launch with prog := is.map encode } } = t := by
  simp [State.loadProgram, LoadError.check_eq_ok_iff]

/-- An input is accepted when its Values are legal (R212(a)); the queue is all that it sets. -/
theorem State.supplyInput_ok_iff {s t : State} {vs : List Value} :
    s.supplyInput vs = .ok t ↔ (∀ v ∈ vs, v.legal = true) ∧ { s with inq := vs } = t := by
  simp [State.supplyInput, LoadError.check_eq_ok_iff]

/-! ## The invariants of a loaded run -/

/-- RESET takes nothing from the run before it: the launch image, the queue and the pushes to come decide the
invariants. -/
theorem inv_restart_of_launch {s : State} (hlaunch : LaunchOk s) (hwf : s.launch.room.wf)
    (hin : ∀ c ∈ s.launch.room, c.1 < s.launch.memLen) (hroom : ∀ c ∈ s.launch.room, c.2.legal = true)
    (hinq : ∀ v ∈ s.inq, v.legal = true) (hpushes : ∀ h ∈ s.hostInputs, ∀ v ∈ h.pushes, v.legal = true) :
    Inv s.restart where
  values := ⟨rfl, hroom, hinq, by simp, hroom, hpushes⟩
  bank := ⟨hwf, hin, hwf, hin⟩
  counters := hlaunch.countersBounded_restart
  status := StatusCoherent.restart s

/-- Settles O54: the loader's checks are the launch duties, and a bank built from pairs lists cells of the pairs. -/
theorem loaderEstablishesTheInvariants : Obligations.LoaderEstablishesTheInvariants := by
  intro s a b c memLen pairs is vs hpushes ha hb hc
  obtain ⟨hmemLen, hin, hroom, rfl⟩ := State.loadRoom_ok_iff.mp ha
  obtain ⟨hprogLen, -, -, -, rfl⟩ := State.loadProgram_ok_iff.mp hb
  obtain ⟨hinq, rfl⟩ := State.supplyInput_ok_iff.mp hc
  exact inv_restart_of_launch ⟨hmemLen, by simpa using hprogLen⟩ (Memory.ofPairs_wf pairs)
    (fun x hx => hin x (Memory.mem_ofPairs pairs x hx)) (fun x hx => hroom x (Memory.mem_ofPairs pairs x hx))
    hinq hpushes

/-! ## The loaded program (R212(c), 30_encoding.md R94) -/

/-- A ProgramAddress that passes the target check lies in the program. -/
theorem lt_of_targetIn {progLen k : Nat} {i : Instr} (h : i.targetIn progLen = true)
    (hk : i.param = .programAddress k) : k < progLen := by
  simpa [Instr.targetIn, hk] using h

/-- Settles O55: the words are the encodings in order, of instructions that are well formed and passed the target
check. -/
theorem loadedProgramIsTheOneAuthored : Obligations.LoadedProgramIsTheOneAuthored := by
  intro s t is h
  obtain ⟨-, -, hlegal, htarget, rfl⟩ := State.loadProgram_ok_iff.mp h
  refine ⟨List.length_map encode, fun n i hi => ⟨⟨encode i, ?_, ?_⟩, fun k hk => ?_⟩⟩
  · exact (List.getElem?_map ..).trans (congrArg _ hi)
  · exact decodeInvertsEncode i (i.wellFormed_eq.trans (hlegal i (List.mem_of_getElem? hi)))
  · rw [List.length_map]
    exact lt_of_targetIn (htarget i (List.mem_of_getElem? hi)) hk

/-! ## A store and the instruction after it (R213) -/

/-- COPYTO moves hands to the named cell, which its parameter names still. -/
theorem exec_copyTo_stores {s : State} {p : Value} {i : Nat} (hwf : s.mem.wf) (hne : s.hands ≠ .empty)
    (hp : NamesCell s p i) :
    ∃ u, exec (.copyTo p) s = .next u ∧ u.hands = .empty ∧ NamesCell u p i ∧ u.mem.read i = s.hands :=
  ⟨_, (copyToFollowsItsRule.1 s p).2.2 i hne hp, rfl, hp, s.mem.read_write_same hwf i s.hands⟩

/-- COPYFROM takes the named cell to hands. -/
theorem exec_copyFrom_loads {s : State} {p : Value} {i : Nat} (hp : NamesCell s p i) (hne : s.mem.read i ≠ .empty) :
    ∃ v, exec (.copyFrom p) s = .next v ∧ v.hands = s.mem.read i :=
  ⟨_, (copyFromFollowsItsRule.1 s p).2.2 i hp hne, rfl⟩

/-- BUMP_UP leaves b + 1 in hands and in the named cell, which its parameter names still. -/
theorem exec_bumpUp_stores {s : State} {p : Value} {i : Nat} {b : Int} (hwf : s.mem.wf) (hp : NamesCell s p i)
    (hb : s.mem.read i = .number b) (hlo : -999 ≤ b + 1) (hhi : b + 1 ≤ 999) :
    ∃ u, exec (.bumpUp p) s = .next u ∧ u.hands = .number (b + 1) ∧ NamesCell u p i ∧
      u.mem.read i = .number (b + 1) :=
  ⟨_, ((bumpUpFollowsItsRule.1 s p).2.2 b i hp hb).2 hlo hhi, rfl, hp, s.mem.read_write_same hwf i _⟩

/-- Settles O38: the store's rule gives what hands and the cell hold, and the next instruction's rule goes by these. The
sum after a bump cannot overflow, as b is at most 498. -/
theorem storeIsSeenByTheNextInstruction : Obligations.StoreIsSeenByTheNextInstruction := by
  refine ⟨fun s p i hwf hne hp => ?_, fun s p i b hwf hp hb hlo hhi => ?_⟩
  · obtain ⟨u, hstore, hhands, hp, hread⟩ := exec_copyTo_stores hwf hne hp
    obtain ⟨v, hload, hv⟩ := exec_copyFrom_loads hp (hread ▸ hne)
    exact ⟨u, v, hstore, hhands, hload, hv.trans hread, (outboxFollowsItsRule.1 u).1 hhands⟩
  · obtain ⟨u, hbump, hhands, hp, hread⟩ := exec_bumpUp_stores hwf hp hb (by omega) (by omega)
    obtain ⟨-, hunder, hsum⟩ := (addFollowsItsRule.1 u p).2.2.2 (b + 1) (b + 1) i hhands hp hread
    beta_reduce at hunder hsum
    by_cases hsmall : -500 ≤ b
    · exact ⟨u, _, hbump, hsum (by omega) (by omega), fun _ => congrArg Value.number (by omega), by omega⟩
    · exact ⟨u, _, hbump, hunder (by omega), by omega, fun _ => rfl⟩

end Sys2Proof.Machine
end
